-- ==== Sys2Proof/Word.lean ====
section
/-!
DEFINITION. The widths of the machine's data (spec/10_state.md R20, R24; spec/20_memory.md R50):
nothing a program handles is wider than a byte, and the program counter alone has nine bits.
-/

namespace Sys2Proof

/-- A byte: memory cell, register, flags register, opcode or operand (R7). -/
abbrev Byte := BitVec 8

/-- The program counter's nine bits, of which the values 0..256 are reachable (R24; log 6). -/
abbrev PcWord := BitVec 9

end Sys2Proof
end

