-- ==== Sys2Proof/Machine/Flags.lean ====
section
/-!
DEFINITION. The flags register's values and its one test (spec/10_state.md R27, R28; spec/42_alu.md R153;
spec/44_control_transfer.md R174, R175).
-/

namespace Sys2Proof.Machine

/-- Bit 0, equal. -/
def flagE : Byte := 0x01#8

/-- Bit 1, greater-than. -/
def flagG : Byte := 0x02#8

/-- Bit 2, less-than. -/
def flagL : Byte := 0x04#8

/-- What CMP writes: all eight bits, exactly one set, from the unsigned comparison (R27, R153; D24, log 18). -/
def compareFlags (x y : Byte) : Byte :=
  if x.toNat < y.toNat then flagL
  else if y.toNat < x.toNat then flagG
  else flagE

/-- The test of JEQ and JNE: the whole flags byte against `0x01`, not a test of the equal bit (R28, R174, R175). -/
def flagsSayEqual (fl : Byte) : Bool := fl == flagE

end Sys2Proof.Machine
end

