-- ==== Sys2Proof/Syntax.lean ====
section
/-!
DEFINITION. The thirteen instructions of spec/opcode_table.json (spec/30_encoding.md R83, R88).
-/

namespace Sys2Proof

/-- The mnemonics of the instruction table, in its order (R1, R88). -/
inductive Mnemonic where
  | LDI | PRN | HLT | ADD | MUL | CMP | PUSH | POP | CALL | RET | JMP | JEQ | JNE
  deriving DecidableEq, Repr

/-- One constructor per row of the opcode table. An operand is the byte as fetched: a register index is the whole
byte, not its low three bits (R84), and an immediate is unsigned and unscaled (R85). -/
inductive Instr where
  /-- Load immediate: register index, immediate. -/
  | ldi (a imm : Byte)
  /-- Print register: register index. -/
  | prn (a : Byte)
  /-- Halt. -/
  | hlt
  /-- Add: first source and destination index, second source index. -/
  | add (a b : Byte)
  /-- Multiply: first source and destination index, second source index. -/
  | mul (a b : Byte)
  /-- Compare: first and second source index. -/
  | cmp (a b : Byte)
  /-- Push the operand byte itself. -/
  | push (imm : Byte)
  /-- Pop into the operand's own cell; the operand's value is ignored (R92 writes it `POP imm`). -/
  | pop (imm : Byte)
  /-- Push the operand byte and jump to register number `pc + 1`. -/
  | call (imm : Byte)
  /-- Pop into the program counter. -/
  | ret
  /-- Jump to the address in a register: register index. -/
  | jmp (a : Byte)
  /-- Jump if `FL = 0x01`: register index. -/
  | jeq (a : Byte)
  /-- Jump if `FL` is not `0x01`: register index. -/
  | jne (a : Byte)
  deriving DecidableEq, Repr

end Sys2Proof
end

