-- ==== Sys2Proof/WellFormed.lean ====
section
/-!
DEFINITION. Which operand bytes name a register, and which instructions name only registers that exist
(spec/30_encoding.md R83, R84).
-/

namespace Sys2Proof

/-- The operand bytes that are register indices (R83). PUSH, POP and CALL have none: their byte is not an index. -/
def Instr.registerOperands : Instr → List Byte
  | .ldi a _ => [a]
  | .prn a => [a]
  | .hlt => []
  | .add a b => [a, b]
  | .mul a b => [a, b]
  | .cmp a b => [a, b]
  | .push _ => []
  | .pop _ => []
  | .call _ => []
  | .ret => []
  | .jmp a => [a]
  | .jeq a => [a]
  | .jne a => [a]

/-- Every register index is in `[0,8)` (R84). An ill-formed instruction still decodes and runs: it raises
`OutOfBoundsAccess` when it uses the index, and an untaken JEQ or JNE never uses it (log 22). -/
def Instr.wellFormed (i : Instr) : Bool :=
  i.registerOperands.all fun b => decide (b.toNat < 8)

end Sys2Proof
end

