-- ==== Sys2Proof/Decode.lean ====
section
/-!
DEFINITION. The opcode map, the bit fields of the opcode byte, the decoder and the encoder
(spec/30_encoding.md R80 to R91; spec/40_fetch_decode_dispatch.md R113 to R115).
-/

namespace Sys2Proof

/-- `OPCODE_MAP` with its default values (R88). The high four bits follow from the source (R86); the low four are
the spec's choice from general knowledge (D1). PRESUMED, unsafe: log 1. -/
def opcodeMap : Mnemonic → Byte
  | .LDI => 0x82#8
  | .PRN => 0x47#8
  | .HLT => 0x01#8
  | .ADD => 0xA0#8
  | .MUL => 0xA2#8
  | .CMP => 0xA7#8
  | .PUSH => 0x45#8
  | .POP => 0x46#8
  | .CALL => 0x50#8
  | .RET => 0x11#8
  | .JMP => 0x54#8
  | .JEQ => 0x55#8
  | .JNE => 0x56#8

/-! ### The four fields of the opcode byte (R81, R113) -/

/-- `ir[7:6]`, the operand count; bit 7 is the high bit. -/
def nops (ir : Byte) : Nat := (ir.extractLsb' 6 2).toNat

/-- `ir[5]`: routed to the ALU. -/
def isAlu (ir : Byte) : Bool := ir.getLsbD 5

/-- `ir[4]`: the handler writes the PC itself. -/
def setsPc (ir : Byte) : Bool := ir.getLsbD 4

/-- `ir[3:0]`: tells apart instructions that share the other fields; it has no meaning of its own (R87). -/
def ident (ir : Byte) : Nat := (ir.extractLsb' 0 4).toNat

/-! ### Decoding -/

/-- Why bytes are no instruction. -/
inductive DecodeError where
  /-- Bit 5 clear and no handler registered for the opcode (R90, R115). -/
  | unknownInstruction (opcode : Byte)
  /-- Bit 5 set and the ALU has no such operation (R90, R114). -/
  | unsupportedOperation (op : Byte)
  /-- Fewer bytes than the opcode's operand count asks for. Only `decodeBytes` gives it; the fetch unit always
  latches three bytes (R112). -/
  | truncated
  deriving DecidableEq, Repr

/-- ALU dispatch's selection of the operation by the whole opcode byte (R114). -/
def decodeAlu (ir a b : Byte) : Except DecodeError Instr :=
  if ir = opcodeMap .ADD then .ok (.add a b)
  else if ir = opcodeMap .MUL then .ok (.mul a b)
  else if ir = opcodeMap .CMP then .ok (.cmp a b)
  else .error (.unsupportedOperation ir)

/-- The fixed handler table, by the whole opcode byte (R115). -/
def decodeTable (ir a b : Byte) : Except DecodeError Instr :=
  if ir = opcodeMap .LDI then .ok (.ldi a b)
  else if ir = opcodeMap .PRN then .ok (.prn a)
  else if ir = opcodeMap .HLT then .ok .hlt
  else if ir = opcodeMap .PUSH then .ok (.push a)
  else if ir = opcodeMap .POP then .ok (.pop a)
  else if ir = opcodeMap .CALL then .ok (.call a)
  else if ir = opcodeMap .RET then .ok .ret
  else if ir = opcodeMap .JMP then .ok (.jmp a)
  else if ir = opcodeMap .JEQ then .ok (.jeq a)
  else if ir = opcodeMap .JNE then .ok (.jne a)
  else .error (.unknownInstruction ir)

/-- The decoder on the three latched bytes: bit 5 routes to the ALU before any table lookup (R110, R114, R115; D9). -/
def decode (ir a b : Byte) : Except DecodeError Instr :=
  if isAlu ir then decodeAlu ir a b else decodeTable ir a b

/-- Decoding from any byte string: the instruction and the bytes after it. An opcode that is no instruction is
refused as such whatever follows it; a legal one must have its `nops` operand bytes. -/
def decodeBytes : List Byte → Except DecodeError (Instr × List Byte)
  | [] => .error .truncated
  | ir :: rest =>
    match decode ir (rest.getD 0 0) (rest.getD 1 0) with
    | .error e => .error e
    | .ok i => if rest.length < nops ir then .error .truncated else .ok (i, rest.drop (nops ir))

/-! ### Encoding -/

/-- The row of the opcode table an instruction belongs to. -/
def Instr.mnemonic : Instr → Mnemonic
  | .ldi _ _ => .LDI
  | .prn _ => .PRN
  | .hlt => .HLT
  | .add _ _ => .ADD
  | .mul _ _ => .MUL
  | .cmp _ _ => .CMP
  | .push _ => .PUSH
  | .pop _ => .POP
  | .call _ => .CALL
  | .ret => .RET
  | .jmp _ => .JMP
  | .jeq _ => .JEQ
  | .jne _ => .JNE

/-- The opcode byte of an instruction. -/
def Instr.opcode (i : Instr) : Byte := opcodeMap i.mnemonic

/-- The operand bytes that belong to an instruction, first at the lower address (R51, R80, R92). -/
def Instr.operands : Instr → List Byte
  | .ldi a imm => [a, imm]
  | .prn a => [a]
  | .hlt => []
  | .add a b => [a, b]
  | .mul a b => [a, b]
  | .cmp a b => [a, b]
  | .push imm => [imm]
  | .pop imm => [imm]
  | .call imm => [imm]
  | .ret => []
  | .jmp a => [a]
  | .jeq a => [a]
  | .jne a => [a]

/-- The bytes of an instruction at ascending addresses (R80, R92). -/
def encode (i : Instr) : List Byte := i.opcode :: i.operands

/-! ### Words numbered as the opcode table numbers them -/

/-- The low `nbits` bits of `w` as the three bytes the fetch unit latches; every bit above `nbits` is 0. -/
def latchedBytes (nbits w : Nat) : List Byte :=
  let v := w % 2 ^ nbits
  [BitVec.ofNat 8 v, BitVec.ofNat 8 (v / 2 ^ 8), BitVec.ofNat 8 (v / 2 ^ 16)]

/-- The instruction the decoder reads from an instruction whose bits are `w`: bit 0 is bit 0 of the opcode byte,
the second byte is bits 15..8. -/
def decodeTableWord (nbits w : Nat) : Option Instr :=
  match decodeBytes (latchedBytes nbits w) with
  | .ok (i, _) => some i
  | .error _ => none

end Sys2Proof
end

