-- ==== Sys2Proof/Config.lean ====
section
/-!
DEFINITION. The parameters of spec/00_scope.md R6 that are plain values (the opcode map, also a parameter of R6,
is in Decode.lean), and the model's one free value.
-/

namespace Sys2Proof.Config

/-- `SP_RESET` (R6, R36): the hexadecimal of the source's "0xF4 (224)" wins (C1, D2). DEDUCED, unsafe: log 2. -/
def spReset : Byte := 0xF4#8

/-- `PC_RESET` (R6, R24): the source's "starts at 0". -/
def pcReset : PcWord := 0#9

/-- `LOAD_BASE` (R6, R236): the address of the first loaded byte. -/
def loadBase : Nat := 0

/-- `RESET_GPR` (R6, R36; D3): registers 0 to 6 after reset. PRESUMED, unsafe: log 3. -/
def resetGpr : Byte := 0x00#8

/-- `RESET_FL` (R6, R36; D4): the flags register after reset. PRESUMED, unsafe: log 4. -/
def resetFl : Byte := 0x00#8

/-- `MEM_INIT` (R6, R36; D5): what a cell that nothing has written reads as. PRESUMED, unsafe: log 5. -/
def memInit (_address : Nat) : Byte := 0x00#8

/-- Whether a character outside ASCII is a "digit character" of the loader's filter (R237): the spec assumes
nothing about it (N28), so it is free. DESIGN CHOICE, safe: log 20. -/
opaque nonAsciiDigit : Char → Bool

end Sys2Proof.Config
end

