-- ==== Sys2Proof/Machine/State.lean ====
section
/-!
DEFINITION. The machine's state, `(MEM[0..255], x[0..7], pc, FL, RUN, OUT)` and nothing else
(spec/10_state.md R20 to R36), its faults (spec/60_exceptions.md R190 to R196) and its reset.
-/

namespace Sys2Proof.Machine

/-- Memory: the cells that differ from `Config.memInit`, at strictly rising addresses (`Memory.wf`). -/
abbrev Memory := List Host.Cell

/-- What an out-of-range access was made to (spec/00_scope.md R8; R193). -/
inductive AccessKind where
  | address
  | register
  deriving DecidableEq, Repr

/-- The spec's three faults (R190). The spec describes what taking one does (R196), so a meaning that raises one
answers a NEXT state whose `run` is `faulted`; no step answers `Host.Outcome.fault` (log 14). -/
inductive Fault where
  /-- R191. Raised by the run loop when bit 5 of the opcode is clear and no handler is registered for it.
  Safe: it is the spec's own fault, with the spec's own effect. -/
  | unknownInstruction (opcode : Byte)
  /-- R192. Raised by the run loop when bit 5 of the opcode is set and the ALU has no such operation.
  Safe: it is the spec's own fault, with the spec's own effect. -/
  | unsupportedOperation (op : Byte)
  /-- R193. Raised by the fetch unit, by a register index outside `[0,8)` and by a stack pointer leaving `[0,256)`,
  with the sub-kind and the offending value. Safe: the original design leaves such an access undefined (D10). -/
  | outOfBoundsAccess (kind : AccessKind) (value : Int)
  deriving DecidableEq, Repr

/-- Why the model gives an instruction no meaning. -/
inductive Refusal where
  /-- Answered by `exec` for an instruction whose meaning is not written; no arm answers it now. Safe: the run stops. -/
  | notModelled (mnemonic : String)
  deriving DecidableEq, Repr

/-- The record of a fault (R196): the fault with its value (R193), the PC at the start of the step, and the opcode
byte, or `none` when the opcode fetch itself faulted (log 15). -/
structure FaultRecord where
  fault : Fault
  fpc : PcWord
  fop : Option Byte
  deriving DecidableEq, Repr

/-- The run state (R29). -/
inductive RunState where
  /-- After reset, before the host starts the run. -/
  | idle
  /-- The core takes steps. -/
  | running
  /-- HLT was executed. -/
  | halted
  /-- A fault was raised. -/
  | faulted (record : FaultRecord)
  deriving DecidableEq, Repr

/-- The complete architectural state. -/
structure State where
  /-- `MEM` (R30). -/
  mem : Memory
  /-- `x[0]` to `x[7]`; `x[7]` is the stack pointer (R20, R21). -/
  regs : Vector Byte 8
  /-- The program counter (R24). -/
  pc : PcWord
  /-- The flags register (R27). -/
  fl : Byte
  /-- The run state with its fault record (R29). -/
  run : RunState
  /-- The bytes sent to the output port, oldest first (R31). -/
  out : List Byte
  deriving DecidableEq, Repr

/-- The state after reset, before the loader runs (R36, R230; logs 2 to 5). -/
def State.reset : State where
  mem := []
  regs := (Vector.replicate 8 Config.resetGpr).set 7 Config.spReset
  pc := Config.pcReset
  fl := Config.resetFl
  run := .idle
  out := []

end Sys2Proof.Machine
end

