-- ==== Sys2Proof/Machine/Ops.lean ====
section
/-!
DEFINITION. The named operations over memory, registers, port and run state, taking a fault, and the frame every
instruction runs in (spec/00_scope.md R8, R9; spec/40_fetch_decode_dispatch.md R116; spec/60_exceptions.md R194, R196).
-/

namespace Sys2Proof.Machine

/-! ### Memory cells -/

/-- The byte at an address; an unlisted address reads as `Config.memInit` (R36; log 5). -/
def Memory.read : Memory → Nat → Byte
  | [], a => Config.memInit a
  | (b, w) :: m, a => if a = b then w else Memory.read m a

/-- Put a cell in front of a memory whose addresses are all higher, unless the cell holds its initial value. -/
def Memory.put (a : Nat) (v : Byte) (m : Memory) : Memory :=
  if v = Config.memInit a then m else (a, v) :: m

/-- Write one byte, keeping the canonical form. -/
def Memory.write : Memory → Nat → Byte → Memory
  | [], a, v => Memory.put a v []
  | (b, w) :: m, a, v =>
    if a < b then Memory.put a v ((b, w) :: m)
    else if a = b then Memory.put a v m
    else (b, w) :: Memory.write m a v

/-- Write a list of bytes at ascending addresses. -/
def Memory.writeList (m : Memory) (a : Nat) : List Byte → Memory
  | [] => m
  | v :: vs => Memory.writeList (m.write a v) (a + 1) vs

/-- The canonical form: addresses strictly rising and inside `[0,256)`, no cell listed at its initial value. -/
abbrev Memory.wf (m : Memory) : Prop :=
  m.Pairwise (fun c d => c.1 < d.1) ∧ ∀ c ∈ m, c.1 < 256 ∧ c.2 ≠ Config.memInit c.1

/-! ### Reads and writes of the state (R8) -/

/-- `x[i]`. -/
def State.getReg (s : State) (i : Fin 8) : Byte := s.regs[i]

/-- `x[i] <- v`. -/
def State.setReg (s : State) (i : Fin 8) (v : Byte) : State := { s with regs := s.regs.set i v }

/-- `SP`, which is `x[7]` and no storage of its own (R21). -/
def State.sp (s : State) : Byte := s.getReg 7

/-- `pc <- t`. -/
def State.setPc (s : State) (t : PcWord) : State := { s with pc := t }

/-- `FL <- v`. -/
def State.setFl (s : State) (v : Byte) : State := { s with fl := v }

/-- `MEM` replaced. -/
def State.setMem (s : State) (m : Memory) : State := { s with mem := m }

/-- `RUN <- r`. -/
def State.setRun (s : State) (r : RunState) : State := { s with run := r }

/-- `Out(v)`: one transfer on the output port (R31). -/
def State.emit (s : State) (v : Byte) : State := { s with out := s.out ++ [v] }

/-- `MemRead(addr, 1)`: the address is never reduced modulo 256 (R8, R53; log 10). -/
def State.memRead (s : State) (addr : Int) : Except Fault Byte :=
  if addr < 0 ∨ 255 < addr then .error (.outOfBoundsAccess .address addr)
  else .ok (s.mem.read addr.toNat)

/-- `MemWrite(addr, 1, v)` (R8, R53; log 10). -/
def State.memWrite (s : State) (addr : Int) (v : Byte) : Except Fault State :=
  if addr < 0 ∨ 255 < addr then .error (.outOfBoundsAccess .address addr)
  else .ok (s.setMem (s.mem.write addr.toNat v))

/-! ### Faults -/

/-- The code of a fault (R194; D16). Nothing in the machine reads it. -/
def Fault.code : Fault → Nat
  | .unknownInstruction _ => 1
  | .unsupportedOperation _ => 2
  | .outOfBoundsAccess _ _ => 3

/-- The record's `kind` field (R196). -/
def FaultRecord.kind (r : FaultRecord) : Nat := r.fault.code

/-- Fault entry (R196), from the state at the start of the step: only `RUN` changes. There is no handler, no saved
register and no return; reset alone leaves `faulted` (R199; log 12). -/
def takeFault (f : Fault) (fop : Option Byte) (s : State) : State :=
  s.setRun (.faulted ⟨f, s.pc, fop⟩)

/-! ### The frame of an instruction -/

/-- PC update after the handler (R116): HLT leaves the PC (D14; log 13), a control transfer has written it, every
other instruction advances by the operand count + 1. -/
def pcUpdate (ir : Byte) (s : State) : State :=
  if s.run = .halted then s
  else if setsPc ir then s
  else s.setPc (s.pc + BitVec.ofNat 9 (nops ir + 1))

/-- An instruction is a transaction (R9): the handler's writes and the PC update take effect together, or the
fault it raises is taken from the state before it. -/
def runInstr (ir : Byte) (handler : State → Except Fault State) (s : State) : Host.Outcome State Fault Refusal :=
  match handler s with
  | .ok t => .next (pcUpdate ir t)
  | .error f => .next (takeFault f (some ir) s)

end Sys2Proof.Machine
end

