-- ==== Sys2Proof/Machine/Operands.lean ====
section
/-!
DEFINITION. The operand forms: a checked register index, the stack slot, the operand's own cell, CALL's register
number, a jump target (spec/00_scope.md R8; spec/30_encoding.md R83 to R85).
-/

namespace Sys2Proof.Machine

/-- `Reg(b)`: the whole number is the index, checked and never masked (R8, R84; log 10). -/
def checkReg (b : Nat) : Except Fault (Fin 8) :=
  if h : b < 8 then .ok ⟨b, h⟩ else .error (.outOfBoundsAccess .register b)

/-- The byte in the register that `b` names. -/
def readReg (b : Nat) (s : State) : Except Fault Byte := do
  let i ← checkReg b
  return s.getReg i

/-- `SP - 1` as an unbounded integer, -1..254: where PUSH and CALL store (R160, R171). -/
def pushAddress (s : State) : Int := (s.sp.toNat : Int) - 1

/-- `SP`: where POP and RET read (R161, R172). -/
def popAddress (s : State) : Int := (s.sp.toNat : Int)

/-- `pc + 1`: the operand byte's own cell, where POP stores (R161). -/
def operandCell (s : State) : Int := (s.pc.toNat : Int) + 1

/-- `pc + 1` as a register number: what selects CALL's target (R171). -/
def callRegister (s : State) : Nat := s.pc.toNat + 1

/-- `zext_9`: a jump target is a byte zero-extended into the PC (R170). -/
def jumpTarget (v : Byte) : PcWord := v.setWidth 9

/-- Decrement the stack pointer and store `imm` at its new address (R160, R171); -1 is no address (D11; log 11). -/
def pushByte (imm : Byte) (s : State) : Except Fault State := do
  let sp1 := pushAddress s
  let t ← s.memWrite sp1 imm
  return t.setReg 7 (BitVec.ofInt 8 sp1)

/-- Increment the stack pointer (R161, R172); 256 is no stack pointer (D12; log 11). -/
def incrementSp (s : State) : Except Fault State :=
  let sp1 : Int := popAddress s + 1
  if sp1 > 255 then .error (.outOfBoundsAccess .address sp1)
  else .ok (s.setReg 7 (BitVec.ofInt 8 sp1))

/-- Jump to the address in the register that `b` names (R173). -/
def jumpToRegister (b : Nat) (s : State) : Except Fault State := do
  let v ← readReg b s
  return s.setPc (jumpTarget v)

/-- The untaken path of JEQ and JNE: past the opcode and its operand byte, no register access (R174, R175; log 21). -/
def skipBranch (s : State) : State := s.setPc (s.pc + 2#9)

end Sys2Proof.Machine
end

