-- ==== Sys2Proof/Machine/Alu.lean ====
section
/-!
DEFINITION. The ALU's ADD, MUL and CMP (spec/42_alu.md R150 to R154): each handler, and the instruction it is in the
frame of `runInstr`.
-/

namespace Sys2Proof.Machine

/-- The ALU's two register operands: both indices are checked before anything is written, `A` first (R150; D8). -/
def aluOperands (a b : Byte) : Except Fault (Fin 8 × Fin 8) := do
  let ia ← checkReg a.toNat
  let ib ← checkReg b.toNat
  return (ia, ib)

/-- `n mod 256`: the exact result of an operation on unsigned bytes, narrowed to a byte (R154). -/
def narrow (n : Nat) : Byte := BitVec.ofNat 8 n

/-- `x[A] <- (x[A] + x[B]) mod 256` (R151). -/
def addHandler (a b : Byte) (s : State) : Except Fault State := do
  let (ia, ib) ← aluOperands a b
  return s.setReg ia (narrow ((s.getReg ia).toNat + (s.getReg ib).toNat))

/-- ADD (R151); no flag is written. -/
def execAdd (a b : Byte) (s : State) : Host.Outcome State Fault Refusal :=
  runInstr (opcodeMap .ADD) (addHandler a b) s

/-- `x[A] <- (x[A] * x[B]) mod 256` (R152). -/
def mulHandler (a b : Byte) (s : State) : Except Fault State := do
  let (ia, ib) ← aluOperands a b
  return s.setReg ia (narrow ((s.getReg ia).toNat * (s.getReg ib).toNat))

/-- MUL (R152); no flag is written. -/
def execMul (a b : Byte) (s : State) : Host.Outcome State Fault Refusal :=
  runInstr (opcodeMap .MUL) (mulHandler a b) s

/-- All of `FL` from the unsigned comparison of `x[A]` with `x[B]` (R153). -/
def cmpHandler (a b : Byte) (s : State) : Except Fault State := do
  let (ia, ib) ← aluOperands a b
  return s.setFl (compareFlags (s.getReg ia) (s.getReg ib))

/-- CMP (R153). -/
def execCmp (a b : Byte) (s : State) : Host.Outcome State Fault Refusal :=
  runInstr (opcodeMap .CMP) (cmpHandler a b) s

end Sys2Proof.Machine
end

