-- ==== Sys2Proof/Machine/ControlTransfer.lean ====
section
/-!
DEFINITION. CALL, RET, JMP, JEQ and JNE (spec/44_control_transfer.md R170 to R176): each handler, and the instruction
it is in the frame of `runInstr`.
-/

namespace Sys2Proof.Machine

/-- In the source's order (R171): push the operand byte, then jump to register number `pc + 1`, read after the stack
pointer's decrement. -/
def callHandler (imm : Byte) (s : State) : Except Fault State := do
  let t ← pushByte imm s
  jumpToRegister (callRegister t) t

/-- CALL (R171). -/
def execCall (imm : Byte) (s : State) : Host.Outcome State Fault Refusal :=
  runInstr (opcodeMap .CALL) (callHandler imm) s

/-- `MEM[SP]` goes to the PC and `SP` is incremented (R172). -/
def retHandler (s : State) : Except Fault State := do
  let v ← s.memRead (popAddress s)
  let t ← incrementSp s
  return t.setPc (jumpTarget v)

/-- RET (R172). -/
def execRet (s : State) : Host.Outcome State Fault Refusal :=
  runInstr (opcodeMap .RET) retHandler s

/-- JMP (R173). -/
def execJmp (a : Byte) (s : State) : Host.Outcome State Fault Refusal :=
  runInstr (opcodeMap .JMP) (jumpToRegister a.toNat) s

/-- Jump if `FL` is exactly `0x01`, else past the instruction (R174). -/
def jeqHandler (a : Byte) (s : State) : Except Fault State :=
  if flagsSayEqual s.fl then jumpToRegister a.toNat s else .ok (skipBranch s)

/-- JEQ (R174). -/
def execJeq (a : Byte) (s : State) : Host.Outcome State Fault Refusal :=
  runInstr (opcodeMap .JEQ) (jeqHandler a) s

/-- Jump if `FL` is not exactly `0x01`, else past the instruction (R175). -/
def jneHandler (a : Byte) (s : State) : Except Fault State :=
  if flagsSayEqual s.fl then .ok (skipBranch s) else jumpToRegister a.toNat s

/-- JNE (R175). -/
def execJne (a : Byte) (s : State) : Host.Outcome State Fault Refusal :=
  runInstr (opcodeMap .JNE) (jneHandler a) s

end Sys2Proof.Machine
end

