-- ==== Sys2Proof/Machine/LoadOutputHalt.lean ====
section
/-!
DEFINITION. LDI, PRN and HLT (spec/41_load_output_halt.md R140 to R142): each handler, and the instruction it is in
the frame of `runInstr`.
-/

namespace Sys2Proof.Machine

/-- `x[Reg(a)] <- imm` (R140). -/
def ldiHandler (a imm : Byte) (s : State) : Except Fault State := do
  let i ← checkReg a.toNat
  return s.setReg i imm

/-- LDI (R140). -/
def execLdi (a imm : Byte) (s : State) : Host.Outcome State Fault Refusal :=
  runInstr (opcodeMap .LDI) (ldiHandler a imm) s

/-- `Out(x[Reg(a)])` (R141); the port takes the byte and never blocks (D18; log 16). -/
def prnHandler (a : Byte) (s : State) : Except Fault State := do
  let v ← readReg a.toNat s
  return s.emit v

/-- PRN (R141). -/
def execPrn (a : Byte) (s : State) : Host.Outcome State Fault Refusal :=
  runInstr (opcodeMap .PRN) (prnHandler a) s

/-- `RUN <- halted` (R142). -/
def hltHandler (s : State) : Except Fault State := .ok (s.setRun .halted)

/-- HLT (R142); the PC stays at the HLT opcode (D14; log 13). -/
def execHlt (s : State) : Host.Outcome State Fault Refusal :=
  runInstr (opcodeMap .HLT) hltHandler s

end Sys2Proof.Machine
end

