-- ==== Sys2Proof/Machine/Stack.lean ====
section
/-!
DEFINITION. PUSH and POP, with the quirk the source orders to be kept: both act on the raw operand byte
(spec/43_stack.md R160 to R162).
-/

namespace Sys2Proof.Machine

/-- PUSH (R160): the operand byte itself goes to `MEM[SP-1]`, and `SP` follows. -/
def execPush (imm : Byte) (s : State) : Host.Outcome State Fault Refusal :=
  runInstr (opcodeMap .PUSH) (pushByte imm) s

/-- `MEM[SP]` goes to the operand's own cell `MEM[pc+1]`, and `SP` is incremented (R161). If the increment faults,
the memory write is discarded with it (R9). -/
def popHandler (s : State) : Except Fault State := do
  let v ← s.memRead (popAddress s)
  let t ← s.memWrite (operandCell s) v
  incrementSp t

/-- POP (R161); the operand's value is ignored. -/
def execPop (_imm : Byte) (s : State) : Host.Outcome State Fault Refusal :=
  runInstr (opcodeMap .POP) popHandler s

end Sys2Proof.Machine
end

