-- ==== Sys2Proof/Machine/Fetch.lean ====
section
/-!
DEFINITION. The fetch unit (spec/40_fetch_decode_dispatch.md R111, R112), what the decoder's refusals raise (R114,
R115), and how the host lays an instruction's bytes where the next fetch reads them.
-/

namespace Sys2Proof.Machine

/-- Opcode fetch (R111). -/
def fetchOpcode (s : State) : Except Fault Byte := s.memRead (s.pc.toNat : Int)

/-- Operand fetch (R112): both cells are read whatever the operand count, before the opcode is decoded (D7; log 7). -/
def fetchOperands (s : State) : Except Fault (Byte × Byte) := do
  let a ← s.memRead ((s.pc.toNat : Int) + 1)
  let b ← s.memRead ((s.pc.toNat : Int) + 2)
  return (a, b)

/-- The fault that dispatch raises for bytes that are no instruction (R114, R115). The three latched bytes are
never too few; the last arm is for completeness. -/
def decodeFault (ir : Byte) : DecodeError → Fault
  | .unknownInstruction op => .unknownInstruction op
  | .unsupportedOperation op => .unsupportedOperation op
  | .truncated => .unknownInstruction ir

/-- Bytes stored at ascending addresses from `a`, those past the top of memory left out. -/
def placeBytes (a : Nat) (bytes : List Byte) (m : Memory) : Memory :=
  m.writeList a (bytes.take (256 - a))

end Sys2Proof.Machine
end

