-- ==== Sys2Proof/Machine/RunLoop.lean ====
section
/-!
DEFINITION. The run loop's body (spec/40_fetch_decode_dispatch.md R110, R118).
-/

namespace Sys2Proof.Machine

/-- One step of a running core: fetch the opcode, fetch both operands, decode, dispatch; the first fault met is
the one taken (R110, R118; log 8). -/
def runLoopBody (s : State) : Host.Outcome State Fault Refusal :=
  match fetchOpcode s with
  | .error f => .next (takeFault f none s)
  | .ok ir =>
    match fetchOperands s with
    | .error f => .next (takeFault f (some ir) s)
    | .ok (a, b) =>
      match decode ir a b with
      | .error e => .next (takeFault (decodeFault ir e) (some ir) s)
      | .ok i => exec i s

/-- The run loop: the body while `RUN = running`; in every other run state the core does nothing (R29, R110; log 17). -/
def runLoopStep (s : State) : Host.Outcome State Fault Refusal :=
  match s.run with
  | .running => runLoopBody s
  | .idle => .next s
  | .halted => .next s
  | .faulted _ => .next s

end Sys2Proof.Machine
end

