-- ==== Sys2Proof/Machine/Step.lean ====
section
/-!
DEFINITION. The step of the machine, and an instruction placed where the next step fetches it.
-/

namespace Sys2Proof.Machine

/-- One step (R110). -/
def step : State → Host.Outcome State Fault Refusal := runLoopStep

/-- The instruction `w`, and the zero bytes above it that the fetch unit latches with it, stored at the program
counter of a core set running: it stands for the host's load and start (R233, R234; log 25). -/
def State.withFetchWord (s : State) (nbits w : Nat) : State :=
  { s with mem := placeBytes s.pc.toNat (latchedBytes nbits w) s.mem, run := .running }

end Sys2Proof.Machine
end

