-- ==== Sys2Proof/Machine/HostMoves.lean ====
section
/-!
DEFINITION. What the host may do to the core and see of it, beside loading (spec/70_reset_and_hazards.md R231 to
R235; spec/10_state.md R31). None of it is part of a step.
-/

namespace Sys2Proof.Machine

/-- Start of the run (R234): `idle` becomes `running` and nothing else changes; no effect in any other run state (R231). -/
def State.start (s : State) : State :=
  match s.run with
  | .idle => s.setRun .running
  | .running => s
  | .halted => s
  | .faulted _ => s

/-- The decimal digits of a byte, no leading zero (R31, R141). -/
def decimalDigits (v : Byte) : List Char :=
  let digit (n : Nat) : Char := Char.ofNat (48 + n % 10)
  let n := v.toNat
  if n < 10 then [digit n]
  else if n < 100 then [digit (n / 10), digit n]
  else [digit (n / 100), digit (n / 10), digit n]

/-- The lines the host shows for the bytes of `OUT` (R31; D18; log 16). -/
def renderOut (out : List Byte) : List (List Char) := out.map decimalDigits

end Sys2Proof.Machine
end

