-- ==== Sys2Proof/Machine/Loader.lean ====
section
/-!
DEFINITION. The loader's contract (spec/70_reset_and_hazards.md R232, R233, R236 to R239): lines of text to bytes,
bytes to memory cells from address 0. The loader is outside the core; its effect on the start state is modelled.
-/

namespace Sys2Proof.Machine

/-- Why a load is refused. No run takes place and the core stays as it was. -/
inductive LoadRefusal where
  /-- Eight leading digit characters, one of them neither `0` nor `1` (R239; D23). -/
  | nonBinaryDigit
  /-- More than 256 accepted lines (R239; D23). -/
  | tooLong
  /-- The host writes memory only while `RUN = idle` (R63, R64, R236; log 23). -/
  | notIdle
  deriving DecidableEq, Repr

/-- A "digit character" (R237); outside ASCII the spec does not say (N28; log 20). -/
def isDigitChar (c : Char) : Bool :=
  if c.toNat < 128 then 48 ≤ c.toNat && c.toNat ≤ 57 else Config.nonAsciiDigit c

/-- The line's leading eight characters, filtered to digit characters (R237). -/
def lineDigits (line : List Char) : List Char := (line.take 8).filter isDigitChar

/-- Eight binary digits as a byte, the first character bit 7 (R237, R93). -/
def binaryByte (digits : List Char) : Byte :=
  BitVec.ofNat 8 (digits.foldl (fun n c => 2 * n + (if c = '1' then 1 else 0)) 0)

/-- What one line yields: a byte, nothing (it is skipped), or the refusal of the load (R237, R239). -/
def readLine (line : List Char) : Except LoadRefusal (Option Byte) :=
  let digits := lineDigits line
  if digits.length = 8 then
    if digits.all (fun c => c = '0' || c = '1') then .ok (some (binaryByte digits)) else .error .nonBinaryDigit
  else .ok none

/-- The bytes of the accepted lines, in the order of the lines; a skipped line leaves no gap (R236, R238). -/
def readLines : List (List Char) → Except LoadRefusal (List Byte)
  | [] => .ok []
  | line :: lines => do
    let first ← readLine line
    let rest ← readLines lines
    return first.toList ++ rest

/-- Store bytes from address 0 while the core is idle (R64, R236, R239). -/
def loadBytes (bytes : List Byte) (s : State) : Except LoadRefusal State :=
  if s.run ≠ .idle then .error .notIdle
  else if 256 < bytes.length then .error .tooLong
  else .ok (s.setMem (s.mem.writeList Config.loadBase bytes))

/-- `load` without the start: the whole effect of the loader on the core (R236). -/
def loadLines (lines : List (List Char)) (s : State) : Except LoadRefusal State := do
  let bytes ← readLines lines
  loadBytes bytes s

/-- The host's `load(sourcePath)`: populate memory, then start the run (R232, R233). -/
def loadAndRun (lines : List (List Char)) (s : State) : Except LoadRefusal State := do
  let t ← loadLines lines s
  return t.start

end Sys2Proof.Machine
end

