-- ==== Sys2Proof/Safety.lean ====
section
/-!
DEFINITION. What statements say about states and runs: the invariant of every step, clean and faulted ends, the
result of a run (spec/10_state.md R24, R27; spec/60_exceptions.md R196, R202; spec/70_reset_and_hazards.md R235).
-/

namespace Sys2Proof.Safety

open Sys2Proof.Machine

/-- The opcode byte at the PC (R111). -/
def ir (s : State) : Byte := s.mem.read s.pc.toNat

/-- The byte the fetch unit latches as `operand_a` (R112). -/
def operandA (s : State) : Byte := s.mem.read (s.pc.toNat + 1)

/-- The byte the fetch unit latches as `operand_b` (R112). -/
def operandB (s : State) : Byte := s.mem.read (s.pc.toNat + 2)

/-- The opcode byte at the PC is a row of the opcode table (R88). -/
def opcodeIs (s : State) (m : Mnemonic) : Prop := ir s = opcodeMap m

/-- `FL` holds its reset value or one of CMP's three (R27). -/
def FlagsLegal (s : State) : Prop :=
  s.fl = Config.resetFl ∨ s.fl = 0x01#8 ∨ s.fl = 0x02#8 ∨ s.fl = 0x04#8

/-- Memory canonical and inside the address space, the PC in 0..256, the flags legal. -/
structure Inv (s : State) : Prop where
  memory : s.mem.wf
  pc : s.pc.toNat ≤ 256
  flags : FlagsLegal s

/-- A fault record agrees with the state it stands in: the PC is still the faulting step's, and the opcode is the
byte there, or "none" with the PC at 256 (R196, R198). -/
def RecordMatches (s : State) : Prop :=
  ∀ r, s.run = .faulted r →
    r.fpc = s.pc ∧
    (s.pc.toNat = 256 → r.fop = none) ∧
    (s.pc.toNat < 256 → r.fop = some (s.mem.read s.pc.toNat))

/-- The fault record the host sees, if the run ended in one (R232, R235). -/
def faultRecord (s : State) : Option FaultRecord :=
  match s.run with
  | .faulted r => some r
  | .idle => none
  | .running => none
  | .halted => none

/-- The result of a run (R235): only a clean halt has one; a fault is never a final state (R202). -/
def runResult (s : State) : Option (List Byte × State) :=
  match s.run with
  | .halted => some (s.out, s)
  | .idle => none
  | .running => none
  | .faulted _ => none

/-- A run of at most `k` steps that meets no fault and no refusal: the core is running or has halted after each. -/
def SafeFor : Nat → State → Prop
  | 0, s => faultRecord s = none
  | k + 1, s => faultRecord s = none ∧ ∃ t, step s = .next t ∧ SafeFor k t

end Sys2Proof.Safety
end

