-- ==== Sys2Proof/Certificates/Slice0/Obligations.lean ====
section
/-!
DEFINITION. The statements about the model, each from rules of spec/. Where a clause rests on a decision D<n> of
spec/92_eei_decisions.md or on an entry of the assumption log, its docstring says so. A next state is written as the
state before it with the fields that change, so each such equation is the instruction's result, its completion and
its whole frame at once.
-/

open Sys2Proof Sys2Proof.Machine Sys2Proof.Safety

/-! ## Reset, fetch and the step -/

/-- Reset (R36, R230). The source gives `pc = 0` and `x[7] = 0xF4`; the other values are the spec's decisions D3, D4,
D5 and D15 (logs 2 to 5, 14). -/
def Obligations.ResetLeavesInitialValues : Prop :=
  State.reset.pc = 0#9 ∧ State.reset.getReg 7 = 0xF4#8 ∧
    (∀ i : Fin 8, i ≠ 7 → State.reset.getReg i = 0x00#8) ∧ State.reset.fl = 0x00#8 ∧
    (∀ a < 256, State.reset.mem.read a = 0x00#8) ∧ State.reset.run = .idle ∧ State.reset.out = [] ∧
    faultRecord State.reset = none

/-- The invariants that every step keeps hold at reset. -/
def Obligations.ResetMeetsInvariants : Prop := Inv State.reset ∧ RecordMatches State.reset

/-- The thirteen opcode bytes, bit by bit from the encoding table (R88; low nibbles D1, log 1), with the latched
operand bytes in their places (R83). -/
def Obligations.WrittenOutWordsDecode : Prop :=
  ∀ a b : Byte,
    decode 0b10000010#8 a b = .ok (.ldi a b) ∧ decode 0b01000111#8 a b = .ok (.prn a) ∧
    decode 0b00000001#8 a b = .ok .hlt ∧ decode 0b10100000#8 a b = .ok (.add a b) ∧
    decode 0b10100010#8 a b = .ok (.mul a b) ∧ decode 0b10100111#8 a b = .ok (.cmp a b) ∧
    decode 0b01000101#8 a b = .ok (.push a) ∧ decode 0b01000110#8 a b = .ok (.pop a) ∧
    decode 0b01010000#8 a b = .ok (.call a) ∧ decode 0b00010001#8 a b = .ok .ret ∧
    decode 0b01010100#8 a b = .ok (.jmp a) ∧ decode 0b01010101#8 a b = .ok (.jeq a) ∧
    decode 0b01010110#8 a b = .ok (.jne a)

/-- A running core whose bytes at the PC are an instruction runs exactly that instruction: nothing stands around
`exec` (R110 to R115). The PC is at most 253, where anything can execute at all (R26, D7). -/
def Obligations.StepRunsTheDecodedInstruction : Prop :=
  ∀ (s : State) (i : Instr), s.run = .running → s.pc.toNat ≤ 253 →
    (decode (ir s) (operandA s) (operandB s) = .ok i → step s = exec i s) ∧
    ((∀ (k : Nat) (h : k < (encode i).length), s.mem.read (s.pc.toNat + k) = (encode i)[k]) → step s = exec i s)

/-- In every run state but `running` the core does nothing, however often it is stepped (R29, R110); that such a step
answers the same state is the model's reading (log 17). -/
def Obligations.StoppedCoreDoesNothing : Prop :=
  ∀ s : State, s.run ≠ .running → ∀ k : Nat, core.run k s = .next s

/-- The fetch unit's faults (R111, R112, R118, R196; D7, D8). -/
def Obligations.FetchPastTheTopFaults : Prop :=
  ∀ s : State, s.run = .running →
    (s.pc.toNat = 256 →
      step s = .next { s with run := .faulted ⟨.outOfBoundsAccess .address 256, s.pc, none⟩ }) ∧
    (254 ≤ s.pc.toNat → s.pc.toNat ≤ 255 →
      step s = .next { s with run := .faulted ⟨.outOfBoundsAccess .address 256, s.pc, some (ir s)⟩ })

/-- An opcode byte that is none of the thirteen (R90, R191, R192): the fault that bit 5 names (D9), whatever the
operand bytes are, with the PC and the opcode recorded and nothing else changed. -/
def Obligations.IllegalOpcodeFaults : Prop :=
  ∀ s : State, s.run = .running → s.pc.toNat ≤ 253 → (∀ m, ¬opcodeIs s m) →
    ((ir s).getLsbD 5 = false →
      step s = .next { s with run := .faulted ⟨.unknownInstruction (ir s), s.pc, some (ir s)⟩ }) ∧
    ((ir s).getLsbD 5 = true →
      step s = .next { s with run := .faulted ⟨.unsupportedOperation (ir s), s.pc, some (ir s)⟩ })

/-! ## What each instruction does -/

/-- LDI (R140): the result for a register that exists, the fault for one that does not (D10), and the source's
property that reading the register right after yields the value. -/
def Obligations.LdiLoadsTheImmediate : Prop :=
  ∀ (a imm : Byte) (s : State), s.run = .running →
    encode (.ldi a imm) = [0x82#8, a, imm] ∧
    (∀ h : a.toNat < 8, ∃ t,
      exec (.ldi a imm) s = .next t ∧ t = { s with regs := s.regs.set a.toNat imm h, pc := s.pc + 3#9 } ∧
      exec (.prn a) t = .next { t with out := s.out ++ [imm], pc := s.pc + 5#9 }) ∧
    (8 ≤ a.toNat → exec (.ldi a imm) s =
      .next { s with run := .faulted ⟨.outOfBoundsAccess .register a.toNat, s.pc, some 0x82#8⟩ })

/-- PRN (R141): one byte, the register's, is appended to `OUT` (D18); an index that names no register faults (D10). -/
def Obligations.PrnAppendsTheRegister : Prop :=
  ∀ (a : Byte) (s : State), s.run = .running →
    encode (.prn a) = [0x47#8, a] ∧
    (∀ h : a.toNat < 8, exec (.prn a) s = .next { s with out := s.out ++ [s.regs[a.toNat]], pc := s.pc + 2#9 }) ∧
    (8 ≤ a.toNat → exec (.prn a) s =
      .next { s with run := .faulted ⟨.outOfBoundsAccess .register a.toNat, s.pc, some 0x47#8⟩ })

/-- HLT (R142): `RUN` becomes `halted` and nothing else changes, the PC included (D14; log 13). -/
def Obligations.HltHalts : Prop :=
  encode .hlt = [0x01#8] ∧ ∀ s : State, exec .hlt s = .next { s with run := .halted }

/-- ADD (R151): the sum modulo 256 goes to the first register, no flag changes; `A` is checked before `B` (D8, D10). -/
def Obligations.AddWrapsModulo256 : Prop :=
  ∀ (a b : Byte) (s : State), s.run = .running →
    encode (.add a b) = [0xA0#8, a, b] ∧
    (∀ (ha : a.toNat < 8) (hb : b.toNat < 8), exec (.add a b) s =
      .next { s with
        regs := s.regs.set a.toNat (BitVec.ofNat 8 ((s.regs[a.toNat].toNat + s.regs[b.toNat].toNat) % 256)) ha
        pc := s.pc + 3#9 }) ∧
    (8 ≤ a.toNat → exec (.add a b) s =
      .next { s with run := .faulted ⟨.outOfBoundsAccess .register a.toNat, s.pc, some 0xA0#8⟩ }) ∧
    (a.toNat < 8 → 8 ≤ b.toNat → exec (.add a b) s =
      .next { s with run := .faulted ⟨.outOfBoundsAccess .register b.toNat, s.pc, some 0xA0#8⟩ })

/-- MUL (R152): the low eight bits of the full unsigned product go to the first register, no flag changes; `A` is
checked before `B` (D8, D10). -/
def Obligations.MulKeepsTheLowByte : Prop :=
  ∀ (a b : Byte) (s : State), s.run = .running →
    encode (.mul a b) = [0xA2#8, a, b] ∧
    (∀ (ha : a.toNat < 8) (hb : b.toNat < 8), exec (.mul a b) s =
      .next { s with
        regs := s.regs.set a.toNat (BitVec.ofNat 8 ((s.regs[a.toNat].toNat * s.regs[b.toNat].toNat) % 256)) ha
        pc := s.pc + 3#9 }) ∧
    (8 ≤ a.toNat → exec (.mul a b) s =
      .next { s with run := .faulted ⟨.outOfBoundsAccess .register a.toNat, s.pc, some 0xA2#8⟩ }) ∧
    (a.toNat < 8 → 8 ≤ b.toNat → exec (.mul a b) s =
      .next { s with run := .faulted ⟨.outOfBoundsAccess .register b.toNat, s.pc, some 0xA2#8⟩ })

/-- CMP (R153): all eight bits of `FL` from the unsigned comparison (D24), exactly one of them set, no register
changes; `A` is checked before `B` (D8, D10). -/
def Obligations.CmpSetsExactlyOneFlag : Prop :=
  ∀ (a b : Byte) (s : State), s.run = .running →
    encode (.cmp a b) = [0xA7#8, a, b] ∧
    (∀ (ha : a.toNat < 8) (hb : b.toNat < 8),
      (s.regs[a.toNat].toNat < s.regs[b.toNat].toNat →
        exec (.cmp a b) s = .next { s with fl := 0x04#8, pc := s.pc + 3#9 }) ∧
      (s.regs[b.toNat].toNat < s.regs[a.toNat].toNat →
        exec (.cmp a b) s = .next { s with fl := 0x02#8, pc := s.pc + 3#9 }) ∧
      (s.regs[a.toNat] = s.regs[b.toNat] →
        exec (.cmp a b) s = .next { s with fl := 0x01#8, pc := s.pc + 3#9 })) ∧
    (8 ≤ a.toNat → exec (.cmp a b) s =
      .next { s with run := .faulted ⟨.outOfBoundsAccess .register a.toNat, s.pc, some 0xA7#8⟩ }) ∧
    (a.toNat < 8 → 8 ≤ b.toNat → exec (.cmp a b) s =
      .next { s with run := .faulted ⟨.outOfBoundsAccess .register b.toNat, s.pc, some 0xA7#8⟩ })

/-- PUSH (R160): the operand byte itself goes to `MEM[SP-1]` and `SP` follows; any byte is legal; `SP = 0` faults and
does not wrap (D11; log 11). -/
def Obligations.PushStoresTheOperandByte : Prop :=
  ∀ (imm : Byte) (s : State), s.run = .running →
    encode (.push imm) = [0x45#8, imm] ∧
    (1 ≤ s.sp.toNat → exec (.push imm) s =
      .next { s with mem := s.mem.write (s.sp.toNat - 1) imm, regs := s.regs.set 7 (s.sp - 1#8), pc := s.pc + 2#9 }) ∧
    (s.sp.toNat = 0 → exec (.push imm) s =
      .next { s with run := .faulted ⟨.outOfBoundsAccess .address (-1), s.pc, some 0x45#8⟩ })

/-- POP (R161): `MEM[SP]` goes to the operand's own cell and `SP` is incremented; the operand's value does not
matter; `SP = 0xFF` faults, does not wrap, and discards the write (D12, D13; logs 11, 12). The PC is at most 253
wherever a POP executes (R112). -/
def Obligations.PopWritesItsOwnOperandCell : Prop :=
  ∀ (imm : Byte) (s : State), s.run = .running → s.pc.toNat ≤ 253 →
    encode (.pop imm) = [0x46#8, imm] ∧
    (s.sp.toNat < 255 → exec (.pop imm) s =
      .next { s with
        mem := s.mem.write (s.pc.toNat + 1) (s.mem.read s.sp.toNat)
        regs := s.regs.set 7 (s.sp + 1#8)
        pc := s.pc + 2#9 }) ∧
    (s.sp.toNat = 255 → exec (.pop imm) s =
      .next { s with run := .faulted ⟨.outOfBoundsAccess .address 256, s.pc, some 0x46#8⟩ })

/-- CALL (R171): the operand byte is pushed and the PC becomes register number `pc + 1`, read after the decrement, so
that at `pc = 6` the target is `SP - 1`. `SP = 0` faults first (D11, D8); then a CALL at 7 or above (D10), with the
push discarded (D13). -/
def Obligations.CallJumpsThroughRegisterPcPlusOne : Prop :=
  ∀ (imm : Byte) (s : State), s.run = .running →
    encode (.call imm) = [0x50#8, imm] ∧
    (1 ≤ s.sp.toNat → ∀ h : s.pc.toNat + 1 < 8, exec (.call imm) s =
      .next { s with
        mem := s.mem.write (s.sp.toNat - 1) imm
        regs := s.regs.set 7 (s.sp - 1#8)
        pc := ((s.regs.set 7 (s.sp - 1#8))[s.pc.toNat + 1]).setWidth 9 }) ∧
    (1 ≤ s.sp.toNat → s.pc.toNat = 6 → ∃ t, exec (.call imm) s = .next t ∧ t.pc.toNat = s.sp.toNat - 1) ∧
    (s.sp.toNat = 0 → exec (.call imm) s =
      .next { s with run := .faulted ⟨.outOfBoundsAccess .address (-1), s.pc, some 0x50#8⟩ }) ∧
    (1 ≤ s.sp.toNat → 7 ≤ s.pc.toNat → exec (.call imm) s =
      .next { s with run := .faulted ⟨.outOfBoundsAccess .register (s.pc.toNat + 1), s.pc, some 0x50#8⟩ })

/-- RET (R172): the byte at `MEM[SP]` goes to the PC and `SP` is incremented; `SP = 0xFF` faults (D12; log 11). -/
def Obligations.RetPopsIntoThePc : Prop :=
  encode .ret = [0x11#8] ∧
  ∀ s : State, s.run = .running →
    (s.sp.toNat < 255 → exec .ret s =
      .next { s with regs := s.regs.set 7 (s.sp + 1#8), pc := (s.mem.read s.sp.toNat).setWidth 9 }) ∧
    (s.sp.toNat = 255 → exec .ret s =
      .next { s with run := .faulted ⟨.outOfBoundsAccess .address 256, s.pc, some 0x11#8⟩ })

/-- JMP (R173): the PC becomes the register's value; an index that names no register faults (D10). -/
def Obligations.JmpJumpsToTheRegister : Prop :=
  ∀ (a : Byte) (s : State), s.run = .running →
    encode (.jmp a) = [0x54#8, a] ∧
    (∀ h : a.toNat < 8, exec (.jmp a) s = .next { s with pc := (s.regs[a.toNat]).setWidth 9 }) ∧
    (8 ≤ a.toNat → exec (.jmp a) s =
      .next { s with run := .faulted ⟨.outOfBoundsAccess .register a.toNat, s.pc, some 0x54#8⟩ })

/-- JEQ (R174): taken exactly when the whole flags byte is `0x01`; untaken it advances by 2 and never uses its
operand (log 21), taken it is a jump, whose index is checked (D10). -/
def Obligations.JeqTakenIffFlagsAreOne : Prop :=
  ∀ (a : Byte) (s : State), s.run = .running →
    encode (.jeq a) = [0x55#8, a] ∧
    (s.fl = 0x01#8 → ∀ h : a.toNat < 8, exec (.jeq a) s = .next { s with pc := (s.regs[a.toNat]).setWidth 9 }) ∧
    (s.fl = 0x01#8 → 8 ≤ a.toNat → exec (.jeq a) s =
      .next { s with run := .faulted ⟨.outOfBoundsAccess .register a.toNat, s.pc, some 0x55#8⟩ }) ∧
    (s.fl ≠ 0x01#8 → exec (.jeq a) s = .next { s with pc := s.pc + 2#9 })

/-- JNE (R175): taken exactly when the whole flags byte is not `0x01`; untaken it advances by 2 and never uses its
operand (log 21), taken it is a jump, whose index is checked (D10). -/
def Obligations.JneTakenIffFlagsAreNotOne : Prop :=
  ∀ (a : Byte) (s : State), s.run = .running →
    encode (.jne a) = [0x56#8, a] ∧
    (s.fl ≠ 0x01#8 → ∀ h : a.toNat < 8, exec (.jne a) s = .next { s with pc := (s.regs[a.toNat]).setWidth 9 }) ∧
    (s.fl ≠ 0x01#8 → 8 ≤ a.toNat → exec (.jne a) s =
      .next { s with run := .faulted ⟨.outOfBoundsAccess .register a.toNat, s.pc, some 0x56#8⟩ }) ∧
    (s.fl = 0x01#8 → exec (.jne a) s = .next { s with pc := s.pc + 2#9 })

/-! ## Frames, over every next state: the instruction's own effect or the fault it takes -/

/-- LDI, ADD and MUL change no register but the first operand's, no flag, no output and no byte of memory. -/
def Obligations.RegisterWritersFrame : Prop :=
  ∀ (a b : Byte) (i : Instr) (s t : State), i = .ldi a b ∨ i = .add a b ∨ i = .mul a b → exec i s = .next t →
    (∀ r : Fin 8, r.val ≠ a.toNat → t.getReg r = s.getReg r) ∧ t.fl = s.fl ∧ t.out = s.out ∧
    (∀ addr : Nat, t.mem.read addr = s.mem.read addr) ∧ (t.run = s.run ∨ ∃ f, t.run = .faulted f)

/-- PRN, CMP and HLT change no register and no byte of memory; only CMP changes a flag, only PRN the output, only HLT
sets `halted`. -/
def Obligations.OutputCompareHaltFrame : Prop :=
  ∀ (a b : Byte) (i : Instr) (s t : State), i = .prn a ∨ i = .cmp a b ∨ i = .hlt → exec i s = .next t →
    (∀ r : Fin 8, t.getReg r = s.getReg r) ∧ (∀ addr : Nat, t.mem.read addr = s.mem.read addr) ∧
    (i ≠ .cmp a b → t.fl = s.fl) ∧ (i ≠ .prn a → t.out = s.out) ∧
    (i ≠ .hlt → t.run = s.run ∨ ∃ f, t.run = .faulted f)

/-- PUSH and CALL change no register but the stack pointer, no flag, no output, and no byte of memory outside the one
at `pushAddress s` (with `SP = 0` that is no address, and nothing is stored). -/
def Obligations.PushCallFrame : Prop :=
  ∀ (imm : Byte) (i : Instr) (s t : State), i = .push imm ∨ i = .call imm → exec i s = .next t →
    (∀ r : Fin 8, r ≠ 7 → t.getReg r = s.getReg r) ∧ t.fl = s.fl ∧ t.out = s.out ∧
    (∀ addr : Nat, (addr : Int) ≠ pushAddress s → t.mem.read addr = s.mem.read addr) ∧
    (t.run = s.run ∨ (∃ f, t.run = .faulted f) ∧ ∀ addr : Nat, t.mem.read addr = s.mem.read addr)

/-- POP changes no register but the stack pointer, no flag, no output, and no byte of memory outside its own operand
cell; a POP that faults stores nothing. -/
def Obligations.PopFrame : Prop :=
  ∀ (imm : Byte) (s t : State), exec (.pop imm) s = .next t →
    (∀ r : Fin 8, r ≠ 7 → t.getReg r = s.getReg r) ∧ t.fl = s.fl ∧ t.out = s.out ∧
    (∀ addr : Nat, (addr : Int) ≠ operandCell s → t.mem.read addr = s.mem.read addr) ∧
    (t.run = s.run ∨ (∃ f, t.run = .faulted f) ∧ ∀ addr : Nat, t.mem.read addr = s.mem.read addr)

/-- RET, JMP, JEQ and JNE change no flag, no output, no byte of memory, and no register, RET's stack pointer apart. -/
def Obligations.JumpFrame : Prop :=
  ∀ (a : Byte) (i : Instr) (s t : State), i = .ret ∨ i = .jmp a ∨ i = .jeq a ∨ i = .jne a → exec i s = .next t →
    (∀ r : Fin 8, r ≠ 7 ∨ i ≠ .ret → t.getReg r = s.getReg r) ∧ t.fl = s.fl ∧ t.out = s.out ∧
    (∀ addr : Nat, t.mem.read addr = s.mem.read addr) ∧ (t.run = s.run ∨ ∃ f, t.run = .faulted f)

/-! ## Encoding -/

/-- Decoding and encoding are inverse, for every instruction with every operand byte: an encoded instruction decodes
to itself with the bytes after it left over, and bytes that decode are the encoding of what they decode to. -/
def Obligations.DecodeAndEncodeAreInverse : Prop :=
  (∀ (i : Instr) (rest : List Byte), decodeBytes (encode i ++ rest) = .ok (i, rest)) ∧
  (∀ (bytes rest : List Byte) (i : Instr), decodeBytes bytes = .ok (i, rest) → bytes = encode i ++ rest)

/-! ## Invariants of every step -/

/-- Every step keeps memory canonical inside the address space, the PC in 0..256 and the flags legal (R26, R27, R53),
from any state that has them. -/
def Obligations.StepKeepsInvariant : Prop :=
  ∀ s t : State, Inv s → step s = .next t → Inv t

/-- Every step keeps the fault record, where there is one, in agreement with the state it stands in: the PC it names
is the PC, the opcode it names is the byte there (R196, R198; D13, D17). -/
def Obligations.FaultRecordAgreesWithState : Prop :=
  ∀ s t : State, RecordMatches s → step s = .next t → RecordMatches t

/-- Two canonical memories that read the same everywhere are the same data. -/
def Obligations.CanonicalMemoriesAreExtensional : Prop :=
  ∀ m n : Memory, m.wf → n.wf → (∀ a < 256, m.read a = n.read a) → m = n

/-! ## Rules about the whole machine -/

/-- A step always answers a next state: a running core always has an enabled step, an instruction or a fault's entry
(R243), and a stopped core stays (log 17). -/
def Obligations.EveryStepAnswersANextState : Prop :=
  ∀ s : State, ∃ t, step s = .next t

/-- A running core's step faults exactly in the cases the spec lists (R193, R195, R90): no other fault exists, and
none of these is missed. The list rests on D7, D9 to D12. -/
def Obligations.StepFaultsExactlyAsListed : Prop :=
  ∀ s : State, s.run = .running → s.pc.toNat ≤ 256 →
    ((∃ t f, step s = .next t ∧ t.run = .faulted f) ↔
      254 ≤ s.pc.toNat ∨ (∀ m, ¬opcodeIs s m) ∨
      ((opcodeIs s .LDI ∨ opcodeIs s .PRN ∨ opcodeIs s .JMP) ∧ 8 ≤ (operandA s).toNat) ∨
      ((opcodeIs s .ADD ∨ opcodeIs s .MUL ∨ opcodeIs s .CMP) ∧ (8 ≤ (operandA s).toNat ∨ 8 ≤ (operandB s).toNat)) ∨
      (opcodeIs s .JEQ ∧ s.fl = 0x01#8 ∧ 8 ≤ (operandA s).toNat) ∨
      (opcodeIs s .JNE ∧ s.fl ≠ 0x01#8 ∧ 8 ≤ (operandA s).toNat) ∨
      ((opcodeIs s .PUSH ∨ opcodeIs s .CALL) ∧ s.sp.toNat = 0) ∨
      ((opcodeIs s .POP ∨ opcodeIs s .RET) ∧ s.sp.toNat = 255) ∨
      (opcodeIs s .CALL ∧ 7 ≤ s.pc.toNat))

/-- Faults are precise: the faulting step changes nothing but `RUN` (R9, R196, R198; D13). -/
def Obligations.FaultsArePrecise : Prop :=
  ∀ (s t : State) (f : FaultRecord), s.run = .running → step s = .next t → t.run = .faulted f →
    t = { s with run := .faulted f }

/-- A step of a running core never leads back to `idle`, and leads to `halted` only by executing HLT, which changes
nothing else (R29, R117, R142; D14, D15). -/
def Obligations.OnlyHltHalts : Prop :=
  ∀ s t : State, s.run = .running → step s = .next t →
    t.run ≠ .idle ∧
    (t.run = .halted → s.pc.toNat ≤ 253 ∧ opcodeIs s .HLT ∧ t = { s with run := .halted })

/-- CMP alone writes `FL`, all eight bits at once; JEQ and JNE alone read it, as a whole byte against `0x01`; no other
instruction's effect depends on it or copies it (R28). Which value CMP writes is by the unsigned comparison, the model's
choice (D24, log 18); a JEQ or JNE whose index names no register is in `JeqTakenIffFlagsAreOne` and
`JneTakenIffFlagsAreNotOne` (D10). -/
def Obligations.FlagsWrittenByCmpReadByBranches : Prop :=
  (∀ (a b : Byte) (s : State) (ha : a.toNat < 8) (hb : b.toNat < 8), s.run = .running →
    ∃ t, exec (.cmp a b) s = .next t ∧
      t.fl = if s.regs[a.toNat].toNat < s.regs[b.toNat].toNat then 0x04#8
        else if s.regs[b.toNat].toNat < s.regs[a.toNat].toNat then 0x02#8 else 0x01#8) ∧
  (∀ (i : Instr) (s t : State), (∀ a b, i ≠ .cmp a b) → exec i s = .next t → t.fl = s.fl) ∧
  (∀ (i : Instr) (v : Byte) (s t : State), (∀ a, i ≠ .jeq a ∧ i ≠ .jne a) → exec i s = .next t →
    ∃ u, exec i { s with fl := v } = .next u ∧ { u with fl := 0x00#8 } = { t with fl := 0x00#8 }) ∧
  (∀ (a : Byte) (s : State) (h : a.toNat < 8), s.run = .running →
    exec (.jeq a) s = .next { s with pc := if s.fl = 0x01#8 then (s.regs[a.toNat]).setWidth 9 else s.pc + 2#9 } ∧
    exec (.jne a) s = .next { s with pc := if s.fl = 0x01#8 then s.pc + 2#9 else (s.regs[a.toNat]).setWidth 9 })

/-- No program can tell `FL = 0x02` from `FL = 0x04`: two runs that start apart only in that stay apart in nothing
else, whatever they execute (R176). -/
def Obligations.LessAndGreaterAreIndistinguishable : Prop :=
  ∀ (k : Nat) (s t u : State),
    core.run k { s with fl := 0x02#8 } = .next t → core.run k { s with fl := 0x04#8 } = .next u →
    { u with fl := t.fl } = t ∧ (t.fl = u.fl ∨ t.fl = 0x02#8 ∧ u.fl = 0x04#8)

/-- A step changes a register only as the table of R23 says: LDI, ADD and MUL the one their first operand names, the
stack instructions register 7. -/
def Obligations.RegistersChangeOnlyAsTabled : Prop :=
  ∀ (s t : State) (r : Fin 8), s.run = .running → step s = .next t → t.getReg r ≠ s.getReg r →
    ((opcodeIs s .LDI ∨ opcodeIs s .ADD ∨ opcodeIs s .MUL) ∧ r.val = (operandA s).toNat) ∨
    ((opcodeIs s .PUSH ∨ opcodeIs s .POP ∨ opcodeIs s .CALL ∨ opcodeIs s .RET) ∧ r = 7)

/-- A step changes memory only as the table of R55 says: PUSH and CALL the cell below the stack pointer, to their
operand byte, POP its own operand cell, to the byte at the stack pointer. -/
def Obligations.MemoryChangesOnlyAsTabled : Prop :=
  ∀ (s t : State) (addr : Nat), s.mem.wf → s.run = .running → step s = .next t →
    t.mem.read addr ≠ s.mem.read addr →
    ((opcodeIs s .PUSH ∨ opcodeIs s .CALL) ∧ addr + 1 = s.sp.toNat ∧ t.mem.read addr = operandA s) ∨
    (opcodeIs s .POP ∧ addr = s.pc.toNat + 1 ∧ t.mem.read addr = s.mem.read s.sp.toNat)

/-- `OUT` changes only by PRN appending the byte of the register its operand names (R31, R141; D18). -/
def Obligations.OutputOnlyGrowsByPrn : Prop :=
  ∀ s t : State, s.run = .running → step s = .next t →
    (t.out = s.out ∨ opcodeIs s .PRN ∧ ∃ h : (operandA s).toNat < 8, t.out = s.out ++ [s.regs[(operandA s).toNat]]) ∧
    (t.run = .running → opcodeIs s .PRN → t.out.length = s.out.length + 1)

/-- The PC after an instruction that completes and goes on, by its opcode (R25, R116). -/
def Obligations.PcAfterEachInstruction : Prop :=
  ∀ s t : State, s.run = .running → step s = .next t → t.run = .running →
    (opcodeIs s .LDI ∨ opcodeIs s .ADD ∨ opcodeIs s .MUL ∨ opcodeIs s .CMP → t.pc.toNat = s.pc.toNat + 3) ∧
    (opcodeIs s .PRN ∨ opcodeIs s .PUSH ∨ opcodeIs s .POP → t.pc.toNat = s.pc.toNat + 2) ∧
    (opcodeIs s .CALL → ∃ h : s.pc.toNat + 1 < 8, t.pc.toNat = (t.regs[s.pc.toNat + 1]).toNat) ∧
    (opcodeIs s .RET → t.pc.toNat = (s.mem.read s.sp.toNat).toNat) ∧
    (opcodeIs s .JMP → ∃ h : (operandA s).toNat < 8, t.pc.toNat = (s.regs[(operandA s).toNat]).toNat) ∧
    (opcodeIs s .JEQ → s.fl = 0x01#8 →
      ∃ h : (operandA s).toNat < 8, t.pc.toNat = (s.regs[(operandA s).toNat]).toNat) ∧
    (opcodeIs s .JEQ → s.fl ≠ 0x01#8 → t.pc.toNat = s.pc.toNat + 2) ∧
    (opcodeIs s .JNE → s.fl ≠ 0x01#8 →
      ∃ h : (operandA s).toNat < 8, t.pc.toNat = (s.regs[(operandA s).toNat]).toNat) ∧
    (opcodeIs s .JNE → s.fl = 0x01#8 → t.pc.toNat = s.pc.toNat + 2)

/-- A store is seen by the very next opcode fetch (R62): when a PUSH or a CALL leaves the PC at the cell it stored to,
the next opcode is the byte it pushed. -/
def Obligations.StoreIsSeenByTheNextFetch : Prop :=
  ∀ s t : State, s.mem.wf → s.run = .running → opcodeIs s .PUSH ∨ opcodeIs s .CALL → step s = .next t →
    t.run = .running → t.pc.toNat + 1 = s.sp.toNat → fetchOpcode t = .ok (operandA s)

/-- PUSH then POP (R162): from `x[7] = s` with `1 <= s <= 255`, a POP at any later state whose stack pointer is still
the PUSH's brings the stack pointer back; if the pushed cell is unchanged the POP's operand cell receives the byte
pushed; and the popped cell keeps its value. Both memories are canonical, and the POP stands where one can execute. -/
def Obligations.PushPopRoundTrip : Prop :=
  ∀ (imm any : Byte) (s t u : State), s.mem.wf → s.run = .running → 1 ≤ s.sp.toNat → exec (.push imm) s = .next t →
    u.mem.wf → u.run = .running → u.pc.toNat ≤ 253 → u.sp = t.sp →
    ∃ v, exec (.pop any) u = .next v ∧ v.run = .running ∧ v.sp = s.sp ∧
      (u.mem.read (s.sp.toNat - 1) = t.mem.read (s.sp.toNat - 1) → v.mem.read (u.pc.toNat + 1) = imm) ∧
      v.mem.read (s.sp.toNat - 1) = u.mem.read (s.sp.toNat - 1)

/-- Register 7 is the stack pointer and no instruction that names it is refused (R22): LDI, ADD and MUL write it, PRN,
ADD, MUL, CMP and the jumps read it, as any other register. -/
def Obligations.StackPointerIsAnOrdinaryRegister : Prop :=
  ∀ (r : Byte) (s : State) (h : r.toNat < 8), s.run = .running →
    exec (.ldi 7#8 r) s = .next ({ s with regs := s.regs.set 7 r, pc := s.pc + 3#9 }) ∧
    exec (.prn 7#8) s = .next { s with out := s.out ++ [s.sp], pc := s.pc + 2#9 } ∧
    exec (.add 7#8 r) s = .next { s with regs := s.regs.set 7 (s.sp + s.regs[r.toNat]), pc := s.pc + 3#9 } ∧
    exec (.add r 7#8) s = .next { s with regs := s.regs.set r.toNat (s.regs[r.toNat] + s.sp), pc := s.pc + 3#9 } ∧
    exec (.mul 7#8 r) s = .next { s with regs := s.regs.set 7 (s.sp * s.regs[r.toNat]), pc := s.pc + 3#9 } ∧
    exec (.mul r 7#8) s = .next { s with regs := s.regs.set r.toNat (s.regs[r.toNat] * s.sp), pc := s.pc + 3#9 } ∧
    exec (.cmp 7#8 r) s = .next { s with fl := compareFlags s.sp s.regs[r.toNat], pc := s.pc + 3#9 } ∧
    exec (.cmp r 7#8) s = .next { s with fl := compareFlags s.regs[r.toNat] s.sp, pc := s.pc + 3#9 } ∧
    exec (.jmp 7#8) s = .next { s with pc := s.sp.setWidth 9 } ∧
    (s.fl = 0x01#8 → exec (.jeq 7#8) s = .next { s with pc := s.sp.setWidth 9 }) ∧
    (s.fl ≠ 0x01#8 → exec (.jne 7#8) s = .next { s with pc := s.sp.setWidth 9 })

/-! ## The host's moves -/

/-- Start of the run (R234, R231): `idle` becomes `running` and nothing else changes; in any other run state it has no
effect; after reset and load, the first opcode fetched is the one at address 0. That there is an `idle` is D15 (log 14). -/
def Obligations.StartOnlyLeavesIdle : Prop :=
  (∀ s : State, s.run = .idle → s.start = { s with run := .running }) ∧
  (∀ s : State, s.run ≠ .idle → s.start = s) ∧
  (∀ (lines : List (List Char)) (s : State), loadLines lines State.reset = .ok s →
    loadAndRun lines State.reset = .ok { s with run := .running } ∧ fetchOpcode s.start = .ok (s.mem.read 0))

/-- Which lines yield a byte (R237): only the first eight characters count; unless exactly eight digit characters
remain the line yields nothing; eight binary digits yield the byte whose bit 7 is the first of them. (Eight digits
that are not all binary are R239's refusal, stated apart; a character outside ASCII may be a digit or not: log 20.) -/
def Obligations.LoaderLineYieldsItsByte : Prop :=
  (∀ line : List Char, readLine line = readLine (line.take 8)) ∧
  (∀ line : List Char, ((line.take 8).filter isDigitChar).length ≠ 8 → readLine line = .ok none) ∧
  (∀ (bits : Fin 8 → Bool) (rest : List Char),
    ∃ v : Byte, readLine ((List.ofFn fun k : Fin 8 => if bits k then '1' else '0') ++ rest) = .ok (some v) ∧
      ∀ k : Fin 8, v.getLsbD (7 - k.val) = bits k) ∧
  (∀ c : Char, c.toNat < 128 → (isDigitChar c = true ↔ '0' ≤ c ∧ c ≤ '9'))

/-- The loader's whole effect (R236, R238): the bytes of the accepted lines go to `MEM[0]`, `MEM[1]`, ... in the order
of the lines, wherever they stand in the file; the cells above them keep their value; nothing else changes. That an
accepted load had no refused line and at most 256 bytes is the choice of R239 (D23, log 19); that the core was idle is
read from R63, R64 and R236 (log 23, DEDUCED). -/
def Obligations.LoaderFillsFromAddressZero : Prop :=
  ∀ (lines : List (List Char)) (s t : State), s.mem.wf → loadLines lines s = .ok t →
    ∃ bytes : List Byte,
      lines.map readLine = lines.map (fun line => .ok ((readLine line).toOption.join)) ∧
      bytes = lines.filterMap (fun line => (readLine line).toOption.join) ∧
      (∀ (k : Nat) (h : k < bytes.length), t.mem.read k = bytes[k]) ∧
      (∀ a : Nat, bytes.length ≤ a → t.mem.read a = s.mem.read a) ∧
      s.run = .idle ∧ bytes.length ≤ 256 ∧ t = { s with mem := t.mem }

/-- The loads that are refused, so that no run takes place (R239; D23, log 19): a line with eight digit characters,
one of them not binary; more than 256 accepted lines. -/
def Obligations.LoaderRefusals : Prop :=
  (∀ (before after : List (List Char)) (line : List Char) (s : State),
    (lineDigits line).length = 8 → (∃ c ∈ lineDigits line, c ≠ '0' ∧ c ≠ '1') →
    loadLines (before ++ line :: after) s = .error .nonBinaryDigit) ∧
  (∀ (lines : List (List Char)) (bytes : List Byte) (s : State), s.run = .idle → readLines lines = .ok bytes →
    256 < bytes.length → loadLines lines s = .error .tooLong)
end

