-- ==== Sys2Proof/Laws/Decode.lean ====
section
/-!
SUPPORT. The bit fields of the thirteen opcodes agree with the source's instruction table (spec/30_encoding.md R86,
R89), and the opcode map names thirteen different bytes.
-/

namespace Sys2Proof

/-- The operand count of each opcode (R86). -/
theorem nops_opcodeMap (m : Mnemonic) :
    nops (opcodeMap m) =
      match m with
      | .LDI | .ADD | .MUL | .CMP => 2
      | .PRN | .PUSH | .POP | .CALL | .JMP | .JEQ | .JNE => 1
      | .HLT | .RET => 0 := by
  cases m <;> decide

/-- Bit 5 is set exactly for ADD, MUL and CMP (R89). -/
theorem isAlu_opcodeMap (m : Mnemonic) : isAlu (opcodeMap m) = true ↔ m = .ADD ∨ m = .MUL ∨ m = .CMP := by
  cases m <;> decide

/-- Bit 4 is set exactly for CALL, RET, JMP, JEQ and JNE (R89). -/
theorem setsPc_opcodeMap (m : Mnemonic) :
    setsPc (opcodeMap m) = true ↔ m = .CALL ∨ m = .RET ∨ m = .JMP ∨ m = .JEQ ∨ m = .JNE := by
  cases m <;> decide

theorem opcodeMap_injective {m n : Mnemonic} (h : opcodeMap m = opcodeMap n) : m = n := by
  revert h; cases m <;> cases n <;> decide

/-- Each of the thirteen opcode bytes decodes, with the latched operand bytes in their places. -/
theorem decode_opcodeMap (m : Mnemonic) (a b : Byte) :
    decode (opcodeMap m) a b = .ok (match m with
      | .LDI => .ldi a b | .PRN => .prn a | .HLT => .hlt | .ADD => .add a b | .MUL => .mul a b | .CMP => .cmp a b
      | .PUSH => .push a | .POP => .pop a | .CALL => .call a | .RET => .ret | .JMP => .jmp a | .JEQ => .jeq a
      | .JNE => .jne a) := by
  cases m <;> rfl

/-- Everything a successful decode can be: the opcode byte selects one row, whose operands are the latched bytes. -/
theorem decode_cases {ir a b : Byte} {i : Instr} (h : decode ir a b = .ok i) :
    ir = i.opcode ∧
      (i = .ldi a b ∨ i = .prn a ∨ i = .hlt ∨ i = .add a b ∨ i = .mul a b ∨ i = .cmp a b ∨ i = .push a ∨
        i = .pop a ∨ i = .call a ∨ i = .ret ∨ i = .jmp a ∨ i = .jeq a ∨ i = .jne a) := by
  unfold decode at h
  split at h
  · unfold decodeAlu at h
    split_ifs at h with e e e <;> (cases h; exact ⟨e, by simp⟩)
  · unfold decodeTable at h
    split_ifs at h with e e e e e e e e e e <;> (cases h; exact ⟨e, by simp⟩)

/-- Every opcode byte that is none of the thirteen is refused under the name that bit 5 gives it (R90). -/
theorem decode_illegal {ir : Byte} (a b : Byte) (h : ∀ m, opcodeMap m ≠ ir) :
    decode ir a b = .error (if isAlu ir then .unsupportedOperation ir else .unknownInstruction ir) := by
  have ne : ∀ m, ¬ir = opcodeMap m := fun m e => h m e.symm
  unfold decode
  split <;> simp [decodeAlu, decodeTable, *]

end Sys2Proof
end

