-- ==== Sys2Proof/Laws/Memory.lean ====
section
/-!
SUPPORT. The laws of memory: a read after a write gives the value written, a write leaves every other cell alone,
and every operation keeps the canonical form.
-/

namespace Sys2Proof.Machine

@[simp] theorem Memory.read_nil (a : Nat) : Memory.read [] a = Config.memInit a := rfl

theorem Memory.read_cons (b : Nat) (w : Byte) (m : Memory) (a : Nat) :
    Memory.read ((b, w) :: m) a = if a = b then w else Memory.read m a := rfl

/-- An address below every listed one is unlisted. -/
theorem Memory.read_below {m : Memory} {a : Nat} (h : ∀ c ∈ m, a < c.1) : m.read a = Config.memInit a := by
  induction m with
  | nil => rfl
  | cons c m ih =>
    have hc : a < c.1 := h c (by simp)
    rw [Memory.read_cons, if_neg (by omega), ih fun d hd => h d (by simp [hd])]

theorem Memory.read_put_ne {a b : Nat} (v : Byte) (m : Memory) (h : b ≠ a) : (Memory.put a v m).read b = m.read b := by
  unfold Memory.put
  split
  · rfl
  · rw [Memory.read_cons, if_neg h]

theorem Memory.read_put_same {a : Nat} (v : Byte) {m : Memory} (h : ∀ c ∈ m, a < c.1) :
    (Memory.put a v m).read a = v := by
  unfold Memory.put
  split
  · next e => rw [Memory.read_below h, e]
  · rw [Memory.read_cons, if_pos rfl]

/-- A write leaves every other cell alone. -/
theorem Memory.read_write_ne {a b : Nat} (m : Memory) (v : Byte) (h : b ≠ a) : (m.write a v).read b = m.read b := by
  induction m with
  | nil => exact Memory.read_put_ne v [] h
  | cons c m ih =>
    obtain ⟨d, w⟩ := c
    unfold Memory.write
    split
    · exact Memory.read_put_ne v _ h
    · split
      · next e => subst e; rw [Memory.read_put_ne v m h, Memory.read_cons, if_neg h]
      · rw [Memory.read_cons, Memory.read_cons, ih]

/-- A read after a write to the same cell gives the value written. -/
theorem Memory.read_write_same {m : Memory} (a : Nat) (v : Byte) (h : m.Pairwise (fun c d => c.1 < d.1)) :
    (m.write a v).read a = v := by
  induction m with
  | nil => exact Memory.read_put_same v (by simp)
  | cons c m ih =>
    obtain ⟨d, w⟩ := c
    obtain ⟨hd, hm⟩ := List.pairwise_cons.1 h
    unfold Memory.write
    split
    · next lt =>
      refine Memory.read_put_same v fun e he => ?_
      rcases List.mem_cons.1 he with rfl | he
      · exact lt
      · exact lt.trans (hd e he)
    · split
      · next e => subst e; exact Memory.read_put_same v hd
      · next ne => rw [Memory.read_cons, if_neg ne, ih hm]

/-- Every cell of a written memory is the one written, holding a value that is not its initial one, or an old cell. -/
theorem Memory.mem_write {m : Memory} {a : Nat} {v : Byte} {c : Host.Cell} (h : c ∈ m.write a v) :
    (c = (a, v) ∧ v ≠ Config.memInit a) ∨ c ∈ m := by
  have put : ∀ {m : Memory}, c ∈ Memory.put a v m → (c = (a, v) ∧ v ≠ Config.memInit a) ∨ c ∈ m := by
    intro m h
    unfold Memory.put at h
    split at h
    · exact .inr h
    · next ne => exact (List.mem_cons.1 h).imp (fun e => ⟨e, ne⟩) id
  induction m with
  | nil => exact put h
  | cons d m ih =>
    obtain ⟨b, w⟩ := d
    unfold Memory.write at h
    split at h
    · exact put h
    · split at h
      · exact (put h).imp id (List.mem_cons_of_mem _)
      · rcases List.mem_cons.1 h with rfl | h
        · exact .inr (by simp)
        · exact (ih h).imp id (List.mem_cons_of_mem _)

theorem Memory.put_sorted {m : Memory} {a : Nat} (v : Byte) (hm : m.Pairwise (fun c d => c.1 < d.1))
    (h : ∀ c ∈ m, a < c.1) : (Memory.put a v m).Pairwise (fun c d => c.1 < d.1) := by
  unfold Memory.put
  split
  · exact hm
  · exact List.pairwise_cons.2 ⟨h, hm⟩

theorem Memory.write_sorted {m : Memory} (a : Nat) (v : Byte) (h : m.Pairwise (fun c d => c.1 < d.1)) :
    (m.write a v).Pairwise (fun c d => c.1 < d.1) := by
  induction m with
  | nil => exact Memory.put_sorted v h (by simp)
  | cons c m ih =>
    obtain ⟨d, w⟩ := c
    obtain ⟨hd, hm⟩ := List.pairwise_cons.1 h
    unfold Memory.write
    split
    · next lt =>
      refine Memory.put_sorted v h fun e he => ?_
      rcases List.mem_cons.1 he with rfl | he
      · exact lt
      · exact lt.trans (hd e he)
    · split
      · next e => subst e; exact Memory.put_sorted v hm hd
      · next nlt ne =>
        refine List.pairwise_cons.2 ⟨fun e he => ?_, ih hm⟩
        rcases Memory.mem_write he with ⟨rfl, -⟩ | he
        · exact Nat.lt_of_le_of_ne (Nat.le_of_not_lt nlt) (Ne.symm ne)
        · exact hd e he

/-! ### The canonical form is kept -/

theorem Memory.wf_nil : Memory.wf [] := by simp [Memory.wf]

theorem Memory.write_wf {m : Memory} {a : Nat} (v : Byte) (ha : a < 256) (h : m.wf) : (m.write a v).wf := by
  refine ⟨Memory.write_sorted a v h.1, fun c hc => ?_⟩
  rcases Memory.mem_write hc with ⟨rfl, ne⟩ | hc
  · exact ⟨ha, ne⟩
  · exact h.2 c hc

theorem Memory.writeList_wf {m : Memory} {a : Nat} (bytes : List Byte) (ha : a + bytes.length ≤ 256) (h : m.wf) :
    (m.writeList a bytes).wf := by
  induction bytes generalizing m a with
  | nil => exact h
  | cons v vs ih =>
    simp only [List.length_cons] at ha
    exact ih (by omega) (Memory.write_wf v (by omega) h)

theorem Memory.read_writeList_outside {m : Memory} {a b : Nat} (bytes : List Byte)
    (h : b < a ∨ a + bytes.length ≤ b) : (m.writeList a bytes).read b = m.read b := by
  induction bytes generalizing m a with
  | nil => rfl
  | cons v vs ih =>
    simp only [List.length_cons] at h
    unfold Memory.writeList
    rw [ih (by omega), Memory.read_write_ne m v (by omega)]

theorem Memory.read_writeList_inside {m : Memory} {a : Nat} {bytes : List Byte} (h : m.wf)
    (ha : a + bytes.length ≤ 256) (k : Nat) (hk : k < bytes.length) :
    (m.writeList a bytes).read (a + k) = bytes[k] := by
  induction bytes generalizing m a k with
  | nil => simp at hk
  | cons v vs ih =>
    simp only [List.length_cons] at ha hk
    unfold Memory.writeList
    cases k with
    | zero =>
      rw [Memory.read_writeList_outside vs (by omega)]
      exact Memory.read_write_same a v h.1
    | succ k =>
      rw [show a + (k + 1) = (a + 1) + k by omega, ih (Memory.write_wf v (by omega) h) (by omega) k (by omega)]
      rfl

theorem placeBytes_wf {m : Memory} (a : Nat) (bytes : List Byte) (h : m.wf) : (placeBytes a bytes m).wf := by
  unfold placeBytes
  by_cases ha : a ≤ 256
  · exact Memory.writeList_wf _ (by simp; omega) h
  · rw [show 256 - a = 0 by omega]; exact h

theorem State.withFetchWord_wf {s : State} (nbits w : Nat) (h : s.mem.wf) : (s.withFetchWord nbits w).mem.wf :=
  placeBytes_wf _ _ h

theorem State.reset_wf : State.reset.mem.wf := Memory.wf_nil

end Sys2Proof.Machine
end

