-- ==== Sys2Proof/Laws/State.lean ====
section
/-!
SUPPORT. One lemma per field per update of State, so that no later proof unfolds a record update; the register file's
read-after-write laws.
-/

namespace Sys2Proof.Machine

variable (s : State)

@[simp] theorem State.setReg_mem (i : Fin 8) (v : Byte) : (s.setReg i v).mem = s.mem := rfl
@[simp] theorem State.setReg_regs (i : Fin 8) (v : Byte) : (s.setReg i v).regs = s.regs.set i v := rfl
@[simp] theorem State.setReg_pc (i : Fin 8) (v : Byte) : (s.setReg i v).pc = s.pc := rfl
@[simp] theorem State.setReg_fl (i : Fin 8) (v : Byte) : (s.setReg i v).fl = s.fl := rfl
@[simp] theorem State.setReg_run (i : Fin 8) (v : Byte) : (s.setReg i v).run = s.run := rfl
@[simp] theorem State.setReg_out (i : Fin 8) (v : Byte) : (s.setReg i v).out = s.out := rfl

@[simp] theorem State.setMem_mem (m : Memory) : (s.setMem m).mem = m := rfl
@[simp] theorem State.setMem_regs (m : Memory) : (s.setMem m).regs = s.regs := rfl
@[simp] theorem State.setMem_pc (m : Memory) : (s.setMem m).pc = s.pc := rfl
@[simp] theorem State.setMem_fl (m : Memory) : (s.setMem m).fl = s.fl := rfl
@[simp] theorem State.setMem_run (m : Memory) : (s.setMem m).run = s.run := rfl
@[simp] theorem State.setMem_out (m : Memory) : (s.setMem m).out = s.out := rfl

@[simp] theorem State.setPc_mem (t : PcWord) : (s.setPc t).mem = s.mem := rfl
@[simp] theorem State.setPc_regs (t : PcWord) : (s.setPc t).regs = s.regs := rfl
@[simp] theorem State.setPc_pc (t : PcWord) : (s.setPc t).pc = t := rfl
@[simp] theorem State.setPc_fl (t : PcWord) : (s.setPc t).fl = s.fl := rfl
@[simp] theorem State.setPc_run (t : PcWord) : (s.setPc t).run = s.run := rfl
@[simp] theorem State.setPc_out (t : PcWord) : (s.setPc t).out = s.out := rfl

@[simp] theorem State.setFl_mem (v : Byte) : (s.setFl v).mem = s.mem := rfl
@[simp] theorem State.setFl_regs (v : Byte) : (s.setFl v).regs = s.regs := rfl
@[simp] theorem State.setFl_pc (v : Byte) : (s.setFl v).pc = s.pc := rfl
@[simp] theorem State.setFl_fl (v : Byte) : (s.setFl v).fl = v := rfl
@[simp] theorem State.setFl_run (v : Byte) : (s.setFl v).run = s.run := rfl
@[simp] theorem State.setFl_out (v : Byte) : (s.setFl v).out = s.out := rfl

@[simp] theorem State.setRun_mem (r : RunState) : (s.setRun r).mem = s.mem := rfl
@[simp] theorem State.setRun_regs (r : RunState) : (s.setRun r).regs = s.regs := rfl
@[simp] theorem State.setRun_pc (r : RunState) : (s.setRun r).pc = s.pc := rfl
@[simp] theorem State.setRun_fl (r : RunState) : (s.setRun r).fl = s.fl := rfl
@[simp] theorem State.setRun_run (r : RunState) : (s.setRun r).run = r := rfl
@[simp] theorem State.setRun_out (r : RunState) : (s.setRun r).out = s.out := rfl

@[simp] theorem State.emit_mem (v : Byte) : (s.emit v).mem = s.mem := rfl
@[simp] theorem State.emit_regs (v : Byte) : (s.emit v).regs = s.regs := rfl
@[simp] theorem State.emit_pc (v : Byte) : (s.emit v).pc = s.pc := rfl
@[simp] theorem State.emit_fl (v : Byte) : (s.emit v).fl = s.fl := rfl
@[simp] theorem State.emit_run (v : Byte) : (s.emit v).run = s.run := rfl
@[simp] theorem State.emit_out (v : Byte) : (s.emit v).out = s.out ++ [v] := rfl

@[simp] theorem takeFault_mem (f : Fault) (op : Option Byte) : (takeFault f op s).mem = s.mem := rfl
@[simp] theorem takeFault_regs (f : Fault) (op : Option Byte) : (takeFault f op s).regs = s.regs := rfl
@[simp] theorem takeFault_pc (f : Fault) (op : Option Byte) : (takeFault f op s).pc = s.pc := rfl
@[simp] theorem takeFault_fl (f : Fault) (op : Option Byte) : (takeFault f op s).fl = s.fl := rfl
@[simp] theorem takeFault_out (f : Fault) (op : Option Byte) : (takeFault f op s).out = s.out := rfl
@[simp] theorem takeFault_run (f : Fault) (op : Option Byte) :
    (takeFault f op s).run = .faulted ⟨f, s.pc, op⟩ := rfl

/-! ### Registers -/

@[simp] theorem State.getReg_setReg_same (i : Fin 8) (v : Byte) : (s.setReg i v).getReg i = v := by
  simp [State.getReg, State.setReg]

theorem State.getReg_setReg_ne {i j : Fin 8} (v : Byte) (h : j ≠ i) : (s.setReg i v).getReg j = s.getReg j := by
  have : i.val ≠ j.val := fun e => h (Fin.ext e.symm)
  simp [State.getReg, State.setReg, this]

@[simp] theorem State.sp_setReg_seven (v : Byte) : (s.setReg 7 v).sp = v := s.getReg_setReg_same 7 v

theorem State.sp_setReg_ne {i : Fin 8} (v : Byte) (h : i ≠ 7) : (s.setReg i v).sp = s.sp :=
  s.getReg_setReg_ne v h.symm

@[simp] theorem State.getReg_setMem (m : Memory) (i : Fin 8) : (s.setMem m).getReg i = s.getReg i := rfl
@[simp] theorem State.getReg_setPc (t : PcWord) (i : Fin 8) : (s.setPc t).getReg i = s.getReg i := rfl
@[simp] theorem State.getReg_setFl (v : Byte) (i : Fin 8) : (s.setFl v).getReg i = s.getReg i := rfl
@[simp] theorem State.getReg_setRun (r : RunState) (i : Fin 8) : (s.setRun r).getReg i = s.getReg i := rfl
@[simp] theorem State.getReg_emit (v : Byte) (i : Fin 8) : (s.emit v).getReg i = s.getReg i := rfl

@[simp] theorem State.sp_setMem (m : Memory) : (s.setMem m).sp = s.sp := rfl
@[simp] theorem State.sp_setPc (t : PcWord) : (s.setPc t).sp = s.sp := rfl
@[simp] theorem State.sp_setFl (v : Byte) : (s.setFl v).sp = s.sp := rfl
@[simp] theorem State.sp_setRun (r : RunState) : (s.setRun r).sp = s.sp := rfl
@[simp] theorem State.sp_emit (v : Byte) : (s.emit v).sp = s.sp := rfl

end Sys2Proof.Machine
end

