-- ==== Sys2Proof/Laws/Ops.lean ====
section
/-!
SUPPORT. What each shared operation answers, once: where it succeeds and with what, where it faults and with what,
and everything an answer can be (the `_cases` lemmas).
-/

namespace Sys2Proof.Machine

/-! ### Checked accesses -/

theorem checkReg_ok {b : Nat} (h : b < 8) : checkReg b = .ok ⟨b, h⟩ := by simp [checkReg, h]

theorem checkReg_error {b : Nat} (h : 8 ≤ b) : checkReg b = .error (.outOfBoundsAccess .register b) := by
  simp [checkReg, Nat.not_lt.2 h]

theorem readReg_ok {b : Nat} (s : State) (h : b < 8) : readReg b s = .ok s.regs[b] := by
  simp [readReg, checkReg_ok h, bind, Except.bind, pure, Except.pure, State.getReg]

theorem readReg_error {b : Nat} (s : State) (h : 8 ≤ b) :
    readReg b s = .error (.outOfBoundsAccess .register b) := by
  simp [readReg, checkReg_error h, bind, Except.bind]

theorem State.memRead_ok (s : State) {a : Nat} (h : a < 256) : s.memRead (a : Int) = .ok (s.mem.read a) := by
  rw [State.memRead, if_neg (by omega), Int.toNat_natCast]

theorem State.memRead_error (s : State) {a : Int} (h : a < 0 ∨ 255 < a) :
    s.memRead a = .error (.outOfBoundsAccess .address a) := by simp [State.memRead, h]

theorem State.memWrite_ok (s : State) {a : Nat} (v : Byte) (h : a < 256) :
    s.memWrite (a : Int) v = .ok (s.setMem (s.mem.write a v)) := by
  rw [State.memWrite, if_neg (by omega), Int.toNat_natCast]

theorem State.memWrite_error (s : State) {a : Int} (v : Byte) (h : a < 0 ∨ 255 < a) :
    s.memWrite a v = .error (.outOfBoundsAccess .address a) := by simp [State.memWrite, h]

/-- Everything a memory write can do. -/
theorem State.memWrite_cases {s t : State} {a : Int} {v : Byte} (h : s.memWrite a v = .ok t) :
    ∃ n : Nat, a = n ∧ n < 256 ∧ t = s.setMem (s.mem.write n v) := by
  unfold State.memWrite at h
  split at h
  · simp at h
  · exact ⟨a.toNat, by omega, by omega, by simpa using h.symm⟩

/-- A memory write keeps the canonical form. -/
theorem State.memWrite_wf {s t : State} {a : Int} {v : Byte} (h : s.memWrite a v = .ok t) (hs : s.mem.wf) :
    t.mem.wf := by
  obtain ⟨n, -, hn, rfl⟩ := State.memWrite_cases h
  exact Memory.write_wf v hn hs

/-! ### The stack pointer and the stack -/

theorem State.sp_toNat_lt (s : State) : s.sp.toNat < 256 := s.sp.isLt

theorem pushByte_ok (imm : Byte) {s : State} (h : 1 ≤ s.sp.toNat) :
    pushByte imm s = .ok ((s.setMem (s.mem.write (s.sp.toNat - 1) imm)).setReg 7 (s.sp - 1#8)) := by
  have hs := s.sp_toNat_lt
  have ea : pushAddress s = ((s.sp.toNat - 1 : Nat) : Int) := by unfold pushAddress; omega
  have es : BitVec.ofInt 8 ((s.sp.toNat - 1 : Nat) : Int) = s.sp - 1#8 := by
    apply BitVec.eq_of_toNat_eq
    simp only [BitVec.toNat_ofInt, BitVec.toNat_sub, BitVec.toNat_ofNat]
    omega
  simp only [pushByte, ea, es, State.memWrite_ok s imm (show s.sp.toNat - 1 < 256 by omega), bind, Except.bind,
    pure, Except.pure]

theorem pushByte_error (imm : Byte) {s : State} (h : s.sp = 0) :
    pushByte imm s = .error (.outOfBoundsAccess .address (-1)) := by
  have ea : pushAddress s = -1 := by simp [pushAddress, h]
  simp [pushByte, ea, State.memWrite_error, bind, Except.bind]

/-- Everything a push can do. -/
theorem pushByte_cases {imm : Byte} {s t : State} (h : pushByte imm s = .ok t) :
    1 ≤ s.sp.toNat ∧ t = (s.setMem (s.mem.write (s.sp.toNat - 1) imm)).setReg 7 (s.sp - 1#8) := by
  by_cases hs : s.sp.toNat = 0
  · rw [pushByte_error imm (BitVec.eq_of_toNat_eq hs)] at h; simp at h
  · rw [pushByte_ok imm (by omega)] at h
    exact ⟨by omega, by simpa using h.symm⟩

theorem incrementSp_ok {s : State} (h : s.sp.toNat < 255) : incrementSp s = .ok (s.setReg 7 (s.sp + 1#8)) := by
  have es : BitVec.ofInt 8 ((s.sp.toNat : Int) + 1) = s.sp + 1#8 := by
    apply BitVec.eq_of_toNat_eq
    simp only [BitVec.toNat_ofInt, BitVec.toNat_add, BitVec.toNat_ofNat]
    omega
  have : ¬((s.sp.toNat : Int) + 1 > 255) := by omega
  simp only [incrementSp, popAddress, es, if_neg this]

theorem incrementSp_error {s : State} (h : s.sp.toNat = 255) :
    incrementSp s = .error (.outOfBoundsAccess .address 256) := by
  simp [incrementSp, popAddress, h]

/-- Everything an increment of the stack pointer can do. -/
theorem incrementSp_cases {s t : State} (h : incrementSp s = .ok t) :
    s.sp.toNat < 255 ∧ t = s.setReg 7 (s.sp + 1#8) := by
  have hs := s.sp_toNat_lt
  by_cases hs : s.sp.toNat = 255
  · rw [incrementSp_error hs] at h; simp at h
  · rw [incrementSp_ok (by omega)] at h
    exact ⟨by omega, by simpa using h.symm⟩

theorem memRead_popAddress (s : State) : s.memRead (popAddress s) = .ok (s.mem.read s.sp.toNat) :=
  s.memRead_ok s.sp_toNat_lt

/-! ### Jumps -/

theorem jumpToRegister_ok {b : Nat} (s : State) (h : b < 8) :
    jumpToRegister b s = .ok (s.setPc (s.regs[b].setWidth 9)) := by
  simp [jumpToRegister, readReg_ok s h, bind, Except.bind, pure, Except.pure, jumpTarget]

theorem jumpToRegister_error {b : Nat} (s : State) (h : 8 ≤ b) :
    jumpToRegister b s = .error (.outOfBoundsAccess .register b) := by
  simp [jumpToRegister, readReg_error s h, bind, Except.bind]

theorem jumpTarget_toNat_lt (v : Byte) : (jumpTarget v).toNat < 256 := by
  have := v.isLt
  simp only [jumpTarget, BitVec.toNat_setWidth]
  omega

/-! ### The ALU's operands -/

theorem aluOperands_ok {a b : Byte} (ha : a.toNat < 8) (hb : b.toNat < 8) :
    aluOperands a b = .ok (⟨a.toNat, ha⟩, ⟨b.toNat, hb⟩) := by
  simp [aluOperands, checkReg_ok ha, checkReg_ok hb, bind, Except.bind, pure, Except.pure]

theorem aluOperands_error_first {a : Byte} (b : Byte) (ha : 8 ≤ a.toNat) :
    aluOperands a b = .error (.outOfBoundsAccess .register a.toNat) := by
  simp [aluOperands, checkReg_error ha, bind, Except.bind]

theorem aluOperands_error_second {a b : Byte} (ha : a.toNat < 8) (hb : 8 ≤ b.toNat) :
    aluOperands a b = .error (.outOfBoundsAccess .register b.toNat) := by
  simp [aluOperands, checkReg_ok ha, checkReg_error hb, bind, Except.bind]

/-- CMP sets exactly one of the three flag bits. -/
theorem compareFlags_cases (x y : Byte) :
    (x.toNat < y.toNat ∧ compareFlags x y = 0x04#8) ∨ (y.toNat < x.toNat ∧ compareFlags x y = 0x02#8) ∨
      (x = y ∧ compareFlags x y = 0x01#8) := by
  unfold compareFlags
  rcases Nat.lt_trichotomy x.toNat y.toNat with h | h | h
  · exact .inl ⟨h, by simp [h, flagL]⟩
  · exact .inr (.inr ⟨BitVec.eq_of_toNat_eq h, by simp [h, flagE]⟩)
  · exact .inr (.inl ⟨h, by simp [h, Nat.not_lt.2 h.le, flagG]⟩)

/-! ### The frame of an instruction -/

theorem runInstr_ok {ir : Byte} {h : State → Except Fault State} {s t : State} (e : h s = .ok t) :
    runInstr ir h s = .next (pcUpdate ir t) := by simp [runInstr, e]

theorem runInstr_error {ir : Byte} {h : State → Except Fault State} {s : State} {f : Fault} (e : h s = .error f) :
    runInstr ir h s = .next (takeFault f (some ir) s) := by simp [runInstr, e]

/-- Everything an instruction can answer: the completed handler with the PC updated, or the fault taken from the
state before it. -/
theorem runInstr_cases {ir : Byte} {h : State → Except Fault State} {s u : State} (e : runInstr ir h s = .next u) :
    (∃ t, h s = .ok t ∧ u = pcUpdate ir t) ∨ ∃ f, h s = .error f ∧ u = takeFault f (some ir) s := by
  unfold runInstr at e
  split at e
  · next t ht => exact .inl ⟨t, ht, by simpa using e.symm⟩
  · next f hf => exact .inr ⟨f, hf, by simpa using e.symm⟩

theorem pcUpdate_advance {ir : Byte} {s : State} (hr : s.run ≠ .halted) (hc : setsPc ir = false) :
    pcUpdate ir s = s.setPc (s.pc + BitVec.ofNat 9 (nops ir + 1)) := by simp [pcUpdate, hr, hc]

theorem pcUpdate_setsPc {ir : Byte} (s : State) (hc : setsPc ir = true) : pcUpdate ir s = s := by
  simp [pcUpdate, hc]

theorem pcUpdate_halted {ir : Byte} {s : State} (hr : s.run = .halted) : pcUpdate ir s = s := by
  simp [pcUpdate, hr]

@[simp] theorem pcUpdate_mem (ir : Byte) (s : State) : (pcUpdate ir s).mem = s.mem := by
  unfold pcUpdate; split <;> [rfl; (split <;> rfl)]
@[simp] theorem pcUpdate_regs (ir : Byte) (s : State) : (pcUpdate ir s).regs = s.regs := by
  unfold pcUpdate; split <;> [rfl; (split <;> rfl)]
@[simp] theorem pcUpdate_fl (ir : Byte) (s : State) : (pcUpdate ir s).fl = s.fl := by
  unfold pcUpdate; split <;> [rfl; (split <;> rfl)]
@[simp] theorem pcUpdate_run (ir : Byte) (s : State) : (pcUpdate ir s).run = s.run := by
  unfold pcUpdate; split <;> [rfl; (split <;> rfl)]
@[simp] theorem pcUpdate_out (ir : Byte) (s : State) : (pcUpdate ir s).out = s.out := by
  unfold pcUpdate; split <;> [rfl; (split <;> rfl)]

end Sys2Proof.Machine
end

