-- ==== Sys2Proof/Laws/Fetch.lean ====
section
/-!
SUPPORT. What the fetch unit answers, and everything one pass of the run loop's body can do.
-/

namespace Sys2Proof.Machine

theorem fetchOpcode_ok {s : State} (h : s.pc.toNat < 256) : fetchOpcode s = .ok (s.mem.read s.pc.toNat) :=
  s.memRead_ok h

theorem fetchOpcode_error {s : State} (h : 256 ≤ s.pc.toNat) :
    fetchOpcode s = .error (.outOfBoundsAccess .address s.pc.toNat) :=
  s.memRead_error (by omega)

theorem fetchOperands_ok {s : State} (h : s.pc.toNat ≤ 253) :
    fetchOperands s = .ok (s.mem.read (s.pc.toNat + 1), s.mem.read (s.pc.toNat + 2)) := by
  have e1 := s.memRead_ok (a := s.pc.toNat + 1) (by omega)
  have e2 := s.memRead_ok (a := s.pc.toNat + 2) (by omega)
  push_cast at e1 e2
  simp [fetchOperands, e1, e2, bind, Except.bind, pure, Except.pure]

theorem fetchOperands_error {s : State} (h : 254 ≤ s.pc.toNat) (h' : s.pc.toNat ≤ 255) :
    fetchOperands s = .error (.outOfBoundsAccess .address 256) := by
  rcases (by omega : s.pc.toNat = 254 ∨ s.pc.toNat = 255) with e | e
  · have e1 := s.memRead_ok (a := 255) (by omega)
    push_cast at e1
    simp [fetchOperands, e, e1, State.memRead_error, bind, Except.bind]
  · simp [fetchOperands, e, State.memRead_error, bind, Except.bind]

/-- What a running core's step is, by where the PC stands: a fetch fault, or the dispatch of the latched bytes. -/
theorem runLoopBody_eq (s : State) :
    runLoopBody s =
      if 256 ≤ s.pc.toNat then .next (takeFault (.outOfBoundsAccess .address s.pc.toNat) none s)
      else if 254 ≤ s.pc.toNat then
        .next (takeFault (.outOfBoundsAccess .address 256) (some (s.mem.read s.pc.toNat)) s)
      else
        match decode (s.mem.read s.pc.toNat) (s.mem.read (s.pc.toNat + 1)) (s.mem.read (s.pc.toNat + 2)) with
        | .error e => .next (takeFault (decodeFault (s.mem.read s.pc.toNat) e) (some (s.mem.read s.pc.toNat)) s)
        | .ok i => exec i s := by
  unfold runLoopBody
  by_cases h : 256 ≤ s.pc.toNat
  · rw [fetchOpcode_error h, if_pos h]
  · rw [fetchOpcode_ok (by omega), if_neg h]
    by_cases h' : 254 ≤ s.pc.toNat
    · simp only [fetchOperands_error h' (by omega), if_pos h']
    · simp only [fetchOperands_ok (s := s) (by omega), if_neg h'] <;> rfl

theorem step_running {s : State} (h : s.run = .running) : step s = runLoopBody s := by
  simp [step, runLoopStep, h]

/-- Everything a running core's step can be: a fault of the opcode fetch, a fault of the operand fetch, the fault of an
illegal opcode, or one instruction of the thirteen. -/
theorem step_running_cases {s : State} (h : s.run = .running) :
    (256 ≤ s.pc.toNat ∧ step s = .next (takeFault (.outOfBoundsAccess .address s.pc.toNat) none s)) ∨
    (254 ≤ s.pc.toNat ∧ s.pc.toNat ≤ 255 ∧
      step s = .next (takeFault (.outOfBoundsAccess .address 256) (some (Safety.ir s)) s)) ∨
    (s.pc.toNat ≤ 253 ∧ (∀ m, ¬Safety.opcodeIs s m) ∧ step s = .next (takeFault
      (if isAlu (Safety.ir s) then .unsupportedOperation (Safety.ir s) else .unknownInstruction (Safety.ir s))
      (some (Safety.ir s)) s)) ∨
    (s.pc.toNat ≤ 253 ∧ ∃ i, decode (Safety.ir s) (Safety.operandA s) (Safety.operandB s) = .ok i ∧
      Safety.opcodeIs s i.mnemonic ∧ step s = exec i s) := by
  rw [step_running h, runLoopBody_eq]
  split
  · next h1 => exact .inl ⟨h1, rfl⟩
  · split
    · next h1 h2 => exact .inr (.inl ⟨h2, by omega, rfl⟩)
    · next h1 h2 =>
      refine .inr (.inr ?_)
      cases e : decode (s.mem.read s.pc.toNat) (s.mem.read (s.pc.toNat + 1)) (s.mem.read (s.pc.toNat + 2)) with
      | ok i => exact .inr ⟨by omega, i, e, (decode_cases e).1, rfl⟩
      | error d =>
        by_cases hm : ∃ m, opcodeMap m = s.mem.read s.pc.toNat
        · obtain ⟨m, hm⟩ := hm
          rw [← hm] at e
          cases m <;> cases e
        · have hm : ∀ m, opcodeMap m ≠ s.mem.read s.pc.toNat := fun m e => hm ⟨m, e⟩
          rw [decode_illegal _ _ hm] at e
          refine .inl ⟨by omega, fun m e => hm m e.symm, ?_⟩
          cases e
          simp only [Safety.ir]
          split <;> simp [decodeFault, *]

end Sys2Proof.Machine
end

