-- ==== Sys2Proof/Laws/Handlers.lean ====
section
/-!
SUPPORT. Everything each handler can do when it raises nothing: the conditions that then hold and the state it leaves,
before the PC update.
-/

namespace Sys2Proof.Machine

theorem ldiHandler_cases {a imm : Byte} {s t : State} (h : ldiHandler a imm s = .ok t) :
    ∃ ha : a.toNat < 8, t = s.setReg ⟨a.toNat, ha⟩ imm := by
  by_cases ha : a.toNat < 8
  · simp only [ldiHandler, checkReg_ok ha, bind, Except.bind, pure, Except.pure, Except.ok.injEq] at h
    exact ⟨ha, h.symm⟩
  · simp [ldiHandler, checkReg_error (not_lt.1 ha), bind, Except.bind] at h

theorem prnHandler_cases {a : Byte} {s t : State} (h : prnHandler a s = .ok t) :
    ∃ ha : a.toNat < 8, t = s.emit s.regs[a.toNat] := by
  by_cases ha : a.toNat < 8
  · simp only [prnHandler, readReg_ok s ha, bind, Except.bind, pure, Except.pure, Except.ok.injEq] at h
    exact ⟨ha, h.symm⟩
  · simp [prnHandler, readReg_error s (not_lt.1 ha), bind, Except.bind] at h

theorem hltHandler_eq (s : State) : hltHandler s = .ok (s.setRun .halted) := rfl

theorem aluOperands_cases {a b : Byte} {p : Fin 8 × Fin 8} (h : aluOperands a b = .ok p) :
    ∃ (ha : a.toNat < 8) (hb : b.toNat < 8), p = (⟨a.toNat, ha⟩, ⟨b.toNat, hb⟩) := by
  by_cases ha : a.toNat < 8
  · by_cases hb : b.toNat < 8
    · rw [aluOperands_ok ha hb] at h; cases h; exact ⟨ha, hb, rfl⟩
    · rw [aluOperands_error_second ha (not_lt.1 hb)] at h; cases h
  · rw [aluOperands_error_first b (not_lt.1 ha)] at h; cases h

theorem addHandler_cases {a b : Byte} {s t : State} (h : addHandler a b s = .ok t) :
    ∃ (ha : a.toNat < 8) (_ : b.toNat < 8),
      t = s.setReg ⟨a.toNat, ha⟩ (narrow (s.regs[a.toNat].toNat + s.regs[b.toNat].toNat)) := by
  unfold addHandler at h
  cases e : aluOperands a b with
  | error f => rw [e] at h; cases h
  | ok p => obtain ⟨ha, hb, rfl⟩ := aluOperands_cases e; rw [e] at h; cases h; exact ⟨ha, hb, rfl⟩

theorem mulHandler_cases {a b : Byte} {s t : State} (h : mulHandler a b s = .ok t) :
    ∃ (ha : a.toNat < 8) (_ : b.toNat < 8),
      t = s.setReg ⟨a.toNat, ha⟩ (narrow (s.regs[a.toNat].toNat * s.regs[b.toNat].toNat)) := by
  unfold mulHandler at h
  cases e : aluOperands a b with
  | error f => rw [e] at h; cases h
  | ok p => obtain ⟨ha, hb, rfl⟩ := aluOperands_cases e; rw [e] at h; cases h; exact ⟨ha, hb, rfl⟩

theorem cmpHandler_cases {a b : Byte} {s t : State} (h : cmpHandler a b s = .ok t) :
    ∃ (_ : a.toNat < 8) (_ : b.toNat < 8), t = s.setFl (compareFlags s.regs[a.toNat] s.regs[b.toNat]) := by
  unfold cmpHandler at h
  cases e : aluOperands a b with
  | error f => rw [e] at h; cases h
  | ok p => obtain ⟨ha, hb, rfl⟩ := aluOperands_cases e; rw [e] at h; cases h; exact ⟨ha, hb, rfl⟩

theorem jumpToRegister_cases {b : Nat} {s t : State} (h : jumpToRegister b s = .ok t) :
    ∃ hb : b < 8, t = s.setPc (s.regs[b].setWidth 9) := by
  by_cases hb : b < 8
  · rw [jumpToRegister_ok s hb] at h; cases h; exact ⟨hb, rfl⟩
  · rw [jumpToRegister_error s (not_lt.1 hb)] at h; cases h

theorem popHandler_cases {s t : State} (h : popHandler s = .ok t) :
    s.sp.toNat < 255 ∧ s.pc.toNat ≤ 254 ∧
      t = (s.setMem (s.mem.write (s.pc.toNat + 1) (s.mem.read s.sp.toNat))).setReg 7 (s.sp + 1#8) := by
  simp only [popHandler, memRead_popAddress, bind, Except.bind] at h
  split at h
  · cases h
  · next u hu =>
    obtain ⟨n, hn, hn', rfl⟩ := State.memWrite_cases hu
    obtain ⟨h1, h2⟩ := incrementSp_cases h
    unfold operandCell at hn
    obtain rfl : n = s.pc.toNat + 1 := by omega
    exact ⟨h1, by omega, h2⟩

theorem callHandler_cases {imm : Byte} {s t : State} (h : callHandler imm s = .ok t) :
    1 ≤ s.sp.toNat ∧ ∃ hp : s.pc.toNat + 1 < 8,
      t = ((s.setMem (s.mem.write (s.sp.toNat - 1) imm)).setReg 7 (s.sp - 1#8)).setPc
        (((s.regs.set 7 (s.sp - 1#8))[s.pc.toNat + 1]).setWidth 9) := by
  unfold callHandler at h
  cases e : pushByte imm s with
  | error f => rw [e] at h; cases h
  | ok u =>
    rw [e] at h
    obtain ⟨h1, rfl⟩ := pushByte_cases e
    obtain ⟨h2, rfl⟩ := jumpToRegister_cases h
    exact ⟨h1, h2, rfl⟩

theorem retHandler_cases {s t : State} (h : retHandler s = .ok t) :
    s.sp.toNat < 255 ∧ t = (s.setReg 7 (s.sp + 1#8)).setPc ((s.mem.read s.sp.toNat).setWidth 9) := by
  simp only [retHandler, memRead_popAddress, bind, Except.bind] at h
  cases e : incrementSp s with
  | error f => rw [e] at h; cases h
  | ok u =>
    obtain ⟨h1, rfl⟩ := incrementSp_cases e
    rw [e] at h
    cases h
    exact ⟨h1, rfl⟩

theorem flagsSayEqual_iff {fl : Byte} : flagsSayEqual fl = true ↔ fl = 0x01#8 := by
  simp [flagsSayEqual, flagE]

theorem jeqHandler_cases {a : Byte} {s t : State} (h : jeqHandler a s = .ok t) :
    (s.fl = 0x01#8 ∧ ∃ ha : a.toNat < 8, t = s.setPc (s.regs[a.toNat].setWidth 9)) ∨
      (s.fl ≠ 0x01#8 ∧ t = s.setPc (s.pc + 2#9)) := by
  unfold jeqHandler at h
  split at h
  · next e => exact .inl ⟨flagsSayEqual_iff.1 e, jumpToRegister_cases h⟩
  · next e => cases h; exact .inr ⟨fun e' => e (flagsSayEqual_iff.2 e'), rfl⟩

theorem jneHandler_cases {a : Byte} {s t : State} (h : jneHandler a s = .ok t) :
    (s.fl ≠ 0x01#8 ∧ ∃ ha : a.toNat < 8, t = s.setPc (s.regs[a.toNat].setWidth 9)) ∨
      (s.fl = 0x01#8 ∧ t = s.setPc (s.pc + 2#9)) := by
  unfold jneHandler at h
  split at h
  · next e => cases h; exact .inr ⟨flagsSayEqual_iff.1 e, rfl⟩
  · next e => exact .inl ⟨fun e' => e (flagsSayEqual_iff.2 e'), jumpToRegister_cases h⟩

end Sys2Proof.Machine
end

