-- ==== Sys2Proof/Laws/PerInstr.lean ====
section
/-!
SUPPORT. Statements about every instruction as syntax, one lemma per constructor.
-/

namespace Sys2Proof.Laws.EncodedLength

/-- An instruction's length is known from its opcode byte alone: one byte and the operand count (spec/30_encoding.md
R82), and the opcode byte comes first (R80). -/
def Statement (i : Instr) : Prop :=
  (encode i).length = 1 + nops i.opcode ∧ i.operands.length = nops i.opcode ∧ (encode i).head? = some i.opcode

theorem of_operandCount {i : Instr} (h : nops i.opcode = i.operands.length) : Statement i :=
  ⟨by simp [encode, h, Nat.add_comm], h.symm, rfl⟩

theorem ldi (a imm : Byte) : Statement (.ldi a imm) := of_operandCount (nops_opcodeMap .LDI)
theorem prn (a : Byte) : Statement (.prn a) := of_operandCount (nops_opcodeMap .PRN)
theorem hlt : Statement .hlt := of_operandCount (nops_opcodeMap .HLT)
theorem add (a b : Byte) : Statement (.add a b) := of_operandCount (nops_opcodeMap .ADD)
theorem mul (a b : Byte) : Statement (.mul a b) := of_operandCount (nops_opcodeMap .MUL)
theorem cmp (a b : Byte) : Statement (.cmp a b) := of_operandCount (nops_opcodeMap .CMP)
theorem push (imm : Byte) : Statement (.push imm) := of_operandCount (nops_opcodeMap .PUSH)
theorem pop (imm : Byte) : Statement (.pop imm) := of_operandCount (nops_opcodeMap .POP)
theorem call (imm : Byte) : Statement (.call imm) := of_operandCount (nops_opcodeMap .CALL)
theorem ret : Statement .ret := of_operandCount (nops_opcodeMap .RET)
theorem jmp (a : Byte) : Statement (.jmp a) := of_operandCount (nops_opcodeMap .JMP)
theorem jeq (a : Byte) : Statement (.jeq a) := of_operandCount (nops_opcodeMap .JEQ)
theorem jne (a : Byte) : Statement (.jne a) := of_operandCount (nops_opcodeMap .JNE)

end Sys2Proof.Laws.EncodedLength
end

