-- ==== Sys2Proof/Laws/Run.lean ====
section
/-!
SUPPORT. Runs of the machine through the host's interface: one more step in front of a run, and a core that is not
running.
-/

namespace Sys2Proof.Machine

theorem core_run_zero (s : State) : core.run 0 s = .next s := rfl

/-- A run of `k + 1` steps whose first step answers `t` is the run of `k` steps from `t`. -/
theorem core_run_succ {s t : State} (k : Nat) (h : step s = .next t) : core.run (k + 1) s = core.run k t := by
  have h : core.step s = .next t := h
  have e := Host.Core.run.eq_2 core s k
  rw [h] at e
  exact e

/-- The run loop takes no step of a core that is not running. -/
theorem runLoopStep_stopped {s : State} (h : s.run ≠ .running) : runLoopStep s = .next s := by
  unfold runLoopStep
  split
  · next e => exact absurd e h
  · rfl
  · rfl
  · rfl

end Sys2Proof.Machine
end

