-- ==== Sys2Proof/Tests/Slice0.lean ====
section
/-!
SUPPORT. The model's own tests: words written out from the encoding table, one-step vectors of
spec/95_test_vectors.md (S<n> the source's, V<n> the spec's, each named where it is used), the WellFormed smoke test,
and a witness for the hypotheses of every statement that has some.
-/

namespace Sys2Proof.Tests

open Sys2Proof.Machine Sys2Proof.Safety

/-! ## Small states -/

/-- A running core at `pc` with the given bytes there, all else as after reset. -/
def at_ (pc : Nat) (bytes : List Byte) : State :=
  { State.reset with mem := Memory.writeList [] pc bytes, pc := BitVec.ofNat 9 pc, run := .running }

/-- `s` with one register changed. -/
def reg (i : Fin 8) (v : Byte) (s : State) : State := s.setReg i v

/-- `s` with other flags. -/
def flags (v : Byte) (s : State) : State := s.setFl v

/-- `s` with one cell of memory changed. -/
def cell (a : Nat) (v : Byte) (s : State) : State := s.setMem (s.mem.write a v)

/-- The state after one step. -/
def after (s : State) : State :=
  match step s with
  | .next t => t
  | .fault _ => s
  | .refused _ => s

/-- The run state with the record of an out-of-range access. -/
def outOfBounds (kind : AccessKind) (value : Int) (fpc : PcWord) (fop : Byte) : RunState :=
  .faulted ⟨.outOfBoundsAccess kind value, fpc, some fop⟩

/-! ## WellFormed: each check refuses an ill-formed term -/

theorem test_wellFormed_ldi : (Instr.ldi 8 0).wellFormed = false ∧ (Instr.ldi 7 255).wellFormed = true := by decide
theorem test_wellFormed_prn : (Instr.prn 8).wellFormed = false := by decide
theorem test_wellFormed_add : (Instr.add 8 0).wellFormed = false ∧ (Instr.add 0 8).wellFormed = false := by decide
theorem test_wellFormed_mul : (Instr.mul 9 0).wellFormed = false ∧ (Instr.mul 0 9).wellFormed = false := by decide
theorem test_wellFormed_cmp : (Instr.cmp 255 0).wellFormed = false ∧ (Instr.cmp 0 255).wellFormed = false := by decide
theorem test_wellFormed_jumps :
    (Instr.jmp 8).wellFormed = false ∧ (Instr.jeq 8).wellFormed = false ∧ (Instr.jne 8).wellFormed = false := by decide
theorem test_wellFormed_immediates :
    (Instr.push 255).wellFormed = true ∧ (Instr.pop 255).wellFormed = true ∧ (Instr.call 255).wellFormed = true ∧
      Instr.hlt.wellFormed = true ∧ Instr.ret.wellFormed = true := by decide

/-! ## Words written out from the encoding of R88, numbered as the opcode table numbers them -/

theorem test_decode_ldi : decodeTableWord 24 0b00001000_00000111_10000010 = some (.ldi 7 8) := by decide
theorem test_decode_prn : decodeTableWord 16 0b00000011_01000111 = some (.prn 3) := by decide
theorem test_decode_hlt : decodeTableWord 8 0b00000001 = some .hlt := by decide
theorem test_decode_add : decodeTableWord 24 0b00000001_00000010_10100000 = some (.add 2 1) := by decide
theorem test_decode_mul : decodeTableWord 24 0b00000001_00000010_10100010 = some (.mul 2 1) := by decide
theorem test_decode_cmp : decodeTableWord 24 0b00000001_00000010_10100111 = some (.cmp 2 1) := by decide
theorem test_decode_push : decodeTableWord 16 0b00101010_01000101 = some (.push 42) := by decide
theorem test_decode_pop : decodeTableWord 16 0b01110111_01000110 = some (.pop 0x77) := by decide
theorem test_decode_call : decodeTableWord 16 0b11111111_01010000 = some (.call 255) := by decide
theorem test_decode_ret : decodeTableWord 8 0b00010001 = some .ret := by decide
theorem test_decode_jmp : decodeTableWord 16 0b00000011_01010100 = some (.jmp 3) := by decide
theorem test_decode_jeq : decodeTableWord 16 0b00000010_01010101 = some (.jeq 2) := by decide
theorem test_decode_jne : decodeTableWord 16 0b00001001_01010110 = some (.jne 9) := by decide

/-- An opcode alone decodes with operand bytes of zero: the table's `nbits` may be shorter than the instruction. -/
theorem test_decode_short : decodeTableWord 8 0x82 = some (.ldi 0 0) ∧ decodeTableWord 8 0x1FF82 = some (.ldi 0 0) := by
  decide

/-- V1 to V6: 0x00, 0x57 and 0xC0 have bit 5 clear, 0xA1 and 0xE0 have it set. -/
theorem test_decode_illegal :
    decode 0x00 0 0 = .error (.unknownInstruction 0x00) ∧ decode 0x57 0 0 = .error (.unknownInstruction 0x57) ∧
      decode 0xC0 0 0 = .error (.unknownInstruction 0xC0) ∧
      decode 0xA1 9 9 = .error (.unsupportedOperation 0xA1) ∧ decode 0xE0 0 0 = .error (.unsupportedOperation 0xE0) :=
  ⟨rfl, rfl, rfl, rfl, rfl⟩

/-- R90's counts: 118 unknown instructions, 125 unsupported operations, and so 13 instructions. -/
theorem test_decode_counts :
    ((List.range 256).countP fun n => (decodeTableWord 8 n).isNone && !isAlu (BitVec.ofNat 8 n)) = 118 ∧
      ((List.range 256).countP fun n => (decodeTableWord 8 n).isNone && isAlu (BitVec.ofNat 8 n)) = 125 ∧
      ((List.range 256).countP fun n => (decodeTableWord 8 n).isSome) = 13 := by decide +kernel

theorem test_decode_truncated : decodeBytes [0x82, 7] = .error .truncated ∧ decodeBytes [] = .error .truncated ∧
    decodeBytes [0x47, 7, 1] = .ok (.prn 7, [1]) := ⟨rfl, rfl, rfl⟩

/-! ## One step each -/

/-- The placed word runs as the first instruction after reset. -/
theorem test_withFetchWord :
    let t := after (State.reset.withFetchWord 24 0x080082)
    t.getReg 0 = 8 ∧ t.pc = 3 ∧ t.run = .running := by decide

/-- V22. -/
theorem test_ldi_stack_pointer : let t := after (at_ 0 [0x82, 7, 0x10]); t.sp = 0x10 ∧ t.pc = 3 := by decide
/-- V23. -/
theorem test_ldi_bad_register :
    let t := after (at_ 0 [0x82, 8, 1]); t.run = outOfBounds .register 8 0 0x82 ∧ t.pc = 0 := by decide
/-- V25. -/
theorem test_prn_stack_pointer : let t := after (at_ 0 [0x47, 7]); t.out = [244] ∧ t.pc = 2 := by decide
/-- V27. -/
theorem test_prn_bad_register :
    let t := after (at_ 0 [0x47, 0xFF]); t.run = outOfBounds .register 255 0 0x47 ∧ t.out = [] := by decide
/-- V8: the last address at which anything executes. -/
theorem test_hlt_at_253 : let t := after (at_ 253 [1]); t.run = .halted ∧ t.pc = 253 := by decide
/-- V9. -/
theorem test_hlt_at_254 : (after (at_ 254 [1])).run = outOfBounds .address 256 254 0x01 := by decide
/-- V30, which is S2. -/
theorem test_add_wraps :
    let t := after (at_ 0 [0xA0, 0, 1] |> reg 0 250 |> reg 1 10)
    t.getReg 0 = 4 ∧ t.getReg 1 = 10 ∧ t.fl = 0 ∧ t.pc = 3 := by decide
/-- V35: `A` is checked first. -/
theorem test_add_first_index_first : (after (at_ 0 [0xA0, 9, 8])).run = outOfBounds .register 9 0 0xA0 := by decide
/-- V38. -/
theorem test_mul_low_byte :
    let t := after (at_ 0 [0xA2, 0, 1] |> reg 0 255 |> reg 1 255); t.getReg 0 = 1 ∧ t.pc = 3 := by decide
/-- V39: a register squared. -/
theorem test_mul_same_register : (after (at_ 0 [0xA2, 2, 2] |> reg 2 13)).getReg 2 = 169 := by decide
/-- V45: unsigned. -/
theorem test_cmp_unsigned : (after (at_ 0 [0xA7, 0, 1] |> reg 0 0x80 |> reg 1 0x7F)).fl = 0x02 := by decide
/-- V46: the old flags are discarded. -/
theorem test_cmp_discards : (after (at_ 0 [0xA7, 3, 3] |> reg 3 0x55 |> flags 0x04)).fl = 0x01 := by decide
/-- V55: the PUSH overwrites its own opcode and still completes. -/
theorem test_push_over_itself :
    let t := after (at_ 0x10 [0x45, 1] |> reg 7 0x11); t.mem.read 0x10 = 1 ∧ t.sp = 0x10 ∧ t.pc = 0x12 := by decide
/-- V53. -/
theorem test_push_at_zero :
    let t := after (at_ 3 [0x45, 1] |> reg 7 0)
    t.run = outOfBounds .address (-1) 3 0x45 ∧ t.mem.read 255 = 0 ∧ t.sp = 0 := by decide
/-- V56. -/
theorem test_pop_into_operand :
    let t := after (at_ 2 [0x46, 0] |> reg 7 0xF3 |> cell 0xF3 0x2A)
    t.mem.read 3 = 0x2A ∧ t.sp = 0xF4 ∧ t.pc = 4 ∧ t.mem.read 0xF3 = 0x2A := by decide
/-- V58: the write is discarded with the fault. -/
theorem test_pop_at_ff :
    let t := after (at_ 3 [0x46, 0x77] |> reg 7 0xFF |> cell 0xFF 0x31)
    t.run = outOfBounds .address 256 3 0x46 ∧ t.mem.read 4 = 0x77 ∧ t.sp = 0xFF := by decide
/-- V72: at 6 the target is the decremented stack pointer. -/
theorem test_call_at_6 :
    let t := after (at_ 6 [0x50, 1]); t.sp = 0xF3 ∧ t.mem.read 0xF3 = 1 ∧ t.pc = 0xF3 := by decide
/-- V74: the push is discarded with the fault. -/
theorem test_call_at_7 :
    let t := after (at_ 7 [0x50, 0xAA])
    t.run = outOfBounds .register 8 7 0x50 ∧ t.sp = 0xF4 ∧ t.mem.read 0xF3 = 0 := by decide
/-- V77. -/
theorem test_ret : let t := after (at_ 12 [0x11] |> reg 7 0xF3 |> cell 0xF3 5); t.pc = 5 ∧ t.sp = 0xF4 := by decide
/-- V79. -/
theorem test_ret_at_ff : (after (at_ 3 [0x11] |> reg 7 0xFF)).run = outOfBounds .address 256 3 0x11 := by decide
/-- V81. -/
theorem test_jmp_stack_pointer : (after (at_ 0 [0x54, 7])).pc = 0xF4 := by decide
/-- V82. -/
theorem test_jmp_bad_register : (after (at_ 0 [0x54, 8])).run = outOfBounds .register 8 0 0x54 := by decide
/-- V84. -/
theorem test_jeq_taken : (after (at_ 10 [0x55, 2] |> reg 2 0x20 |> flags 1)).pc = 0x20 := by decide
/-- V88: untaken, the bad index is never used. -/
theorem test_jeq_untaken : let t := after (at_ 0 [0x55, 9] |> flags 4); t.pc = 2 ∧ t.run = .running := by decide
/-- V93: taken before any CMP. -/
theorem test_jne_taken : (after (at_ 3 [0x56, 0] |> reg 0 5)).pc = 5 := by decide
/-- V94. -/
theorem test_jne_untaken : let t := after (at_ 0 [0x56, 9] |> flags 1); t.pc = 2 ∧ t.run = .running := by decide

/-- V11: the fetch fault outranks the illegal opcode. -/
theorem test_fetch_fault_first : (after (at_ 254 [0xFF])).run = outOfBounds .address 256 254 0xFF := by decide
/-- V12: LDI at 253 leaves the PC at 256, and the fetch there faults with no opcode. -/
theorem test_pc_256 :
    let t := after (at_ 253 [0x82, 0, 7])
    t.getReg 0 = 7 ∧ t.pc = 256 ∧ (after t).run = .faulted ⟨.outOfBoundsAccess .address 256, 256, none⟩ := by decide
/-- V7: the operation is checked before the registers. -/
theorem test_operation_before_registers :
    (after (at_ 0 [0xA1, 9, 9])).run = .faulted ⟨.unsupportedOperation 0xA1, 0, some 0xA1⟩ := by decide
/-- D16: the codes of the faults. -/
theorem test_fault_codes :
    (⟨.unknownInstruction 0, 0, some 0⟩ : FaultRecord).kind = 1 ∧
      (⟨.unsupportedOperation 0xA1, 0, some 0xA1⟩ : FaultRecord).kind = 2 ∧
      (⟨.outOfBoundsAccess .address (-1), 0, some 0x45⟩ : FaultRecord).kind = 3 := by decide
/-- R36, R234: no step runs before the start. -/
theorem test_idle_until_started : after State.reset = State.reset ∧ State.reset.start.run = .running := by decide

/-! ## The loader's examples of spec/95_test_vectors.md -/

/-- The cells 0 to 2 after a load into the reset state, or `none` if it is refused. -/
def loaded (lines : List (List Char)) : Option (List Byte) :=
  match loadLines lines State.reset with
  | .ok s => some [s.mem.read 0, s.mem.read 1, s.mem.read 2]
  | .error _ => none

/-- A comment after the digits is ignored; comment and empty lines shift no address. -/
theorem test_loader_skips :
    loaded ["10000010 # LDI".toList, "# a note".toList, [], "00000000".toList, "00001000".toList] =
      some [0x82, 0, 8] := by decide +kernel
/-- Seven digits among the first eight characters; a line of seven digits; only eight characters count. -/
theorem test_loader_short_lines :
    loaded ["1000 0010".toList, "0000000".toList, "000000011111".toList] = some [1, 0, 0] := by decide +kernel
/-- D23: a digit that is not binary. -/
theorem test_loader_refuses : loaded ["00000012".toList] = none := by decide +kernel
/-- S7: the value 72 is shown as `72`. -/
theorem test_render : renderOut [72, 0, 255] = ["72".toList, "0".toList, "255".toList] := by decide +kernel

/-! ## Witnesses: the hypotheses of each statement are met together, each clause at the edge of its range -/

theorem witness_StepRunsTheDecodedInstruction :
    let s := at_ 253 [0x82, 7, 9]
    s.run = .running ∧ s.pc.toNat ≤ 253 ∧ decode (ir s) (operandA s) (operandB s) = .ok (.ldi 7 9) ∧
      ∀ (k : Nat) (h : k < (encode (.ldi 7 9)).length), s.mem.read (s.pc.toNat + k) = (encode (.ldi 7 9))[k] := by
  refine ⟨rfl, by decide, rfl, by decide⟩

theorem witness_StoppedCoreDoesNothing :
    State.reset.run ≠ .running ∧ (after (at_ 0 [1])).run ≠ .running ∧ (after (at_ 0 [0])).run ≠ .running := by decide

theorem witness_FetchPastTheTopFaults :
    (at_ 256 []).run = .running ∧ (at_ 256 []).pc.toNat = 256 ∧
      254 ≤ (at_ 254 []).pc.toNat ∧ 254 ≤ (at_ 255 []).pc.toNat ∧ (at_ 255 []).pc.toNat ≤ 255 := by decide

theorem witness_IllegalOpcodeFaults :
    let s := at_ 253 [0x00]; let u := at_ 253 [0xFF]
    s.run = .running ∧ s.pc.toNat ≤ 253 ∧ (∀ m, ¬opcodeIs s m) ∧ (ir s).getLsbD 5 = false ∧
      u.run = .running ∧ u.pc.toNat ≤ 253 ∧ (∀ m, ¬opcodeIs u m) ∧ (ir u).getLsbD 5 = true :=
  ⟨rfl, by decide, fun m => by cases m <;> (unfold opcodeIs; decide), rfl, rfl, by decide,
    fun m => by cases m <;> (unfold opcodeIs; decide), rfl⟩

/-- LDI, PRN, JMP: the last register and the first that does not exist, in a running state. -/
theorem witness_register_operand :
    (at_ 0 []).run = .running ∧ (7 : Byte).toNat < 8 ∧ 8 ≤ (8 : Byte).toNat := by decide

theorem witness_LdiLoadsTheImmediate :
    ∃ (a : Byte) (s : State), s.run = .running ∧ a.toNat < 8 := ⟨7, at_ 0 [], rfl, by decide⟩
theorem witness_LdiLoadsTheImmediate_fault :
    ∃ (a : Byte) (s : State), s.run = .running ∧ 8 ≤ a.toNat := ⟨8, at_ 0 [], rfl, by decide⟩
theorem witness_PrnAppendsTheRegister :
    ∃ (a b : Byte) (s : State), s.run = .running ∧ a.toNat < 8 ∧ 8 ≤ b.toNat := ⟨7, 8, at_ 0 [], rfl, by decide, by decide⟩
theorem witness_JmpJumpsToTheRegister :
    ∃ (a b : Byte) (s : State), s.run = .running ∧ a.toNat < 8 ∧ 8 ≤ b.toNat := ⟨7, 8, at_ 0 [], rfl, by decide, by decide⟩

/-- ADD and MUL: both registers exist; the first does not; only the second does not. -/
theorem witness_AddWrapsModulo256 :
    (at_ 0 []).run = .running ∧ ((7 : Byte).toNat < 8 ∧ (7 : Byte).toNat < 8) ∧ 8 ≤ (8 : Byte).toNat ∧
      ((7 : Byte).toNat < 8 ∧ 8 ≤ (8 : Byte).toNat) := by decide
theorem witness_MulKeepsTheLowByte :
    (at_ 0 []).run = .running ∧ ((0 : Byte).toNat < 8 ∧ (7 : Byte).toNat < 8) ∧ 8 ≤ (255 : Byte).toNat ∧
      ((0 : Byte).toNat < 8 ∧ 8 ≤ (8 : Byte).toNat) := by decide

theorem witness_CmpSetsExactlyOneFlag :
    let s := at_ 0 [] |> reg 0 0x7F |> reg 1 0x80
    s.run = .running ∧ s.regs[(0 : Byte).toNat].toNat < s.regs[(1 : Byte).toNat].toNat ∧
      s.regs[(0 : Byte).toNat].toNat < s.regs[(7 : Byte).toNat].toNat ∧
      s.regs[(2 : Byte).toNat] = s.regs[(3 : Byte).toNat] ∧ 8 ≤ (8 : Byte).toNat := by decide

theorem witness_PushStoresTheOperandByte :
    let s := at_ 0 [] |> reg 7 1; let u := at_ 0 [] |> reg 7 0
    s.run = .running ∧ 1 ≤ s.sp.toNat ∧ u.run = .running ∧ u.sp.toNat = 0 := by decide

theorem witness_PopWritesItsOwnOperandCell :
    let s := at_ 253 [] |> reg 7 254; let u := at_ 253 [] |> reg 7 255
    s.run = .running ∧ s.pc.toNat ≤ 253 ∧ s.sp.toNat < 255 ∧ u.run = .running ∧ u.pc.toNat ≤ 253 ∧ u.sp.toNat = 255 := by
  decide

theorem witness_CallJumpsThroughRegisterPcPlusOne :
    let s := at_ 6 [] |> reg 7 1; let u := at_ 6 [] |> reg 7 0; let v := at_ 7 [] |> reg 7 1
    s.run = .running ∧ 1 ≤ s.sp.toNat ∧ s.pc.toNat + 1 < 8 ∧ s.pc.toNat = 6 ∧
      u.run = .running ∧ u.sp.toNat = 0 ∧ v.run = .running ∧ 1 ≤ v.sp.toNat ∧ 7 ≤ v.pc.toNat := by decide

theorem witness_RetPopsIntoThePc :
    let s := at_ 0 [] |> reg 7 254; let u := at_ 0 [] |> reg 7 255
    s.run = .running ∧ s.sp.toNat < 255 ∧ u.run = .running ∧ u.sp.toNat = 255 := by decide

theorem witness_JeqTakenIffFlagsAreOne :
    let s := at_ 0 [] |> flags 1; let u := at_ 0 [] |> flags 3
    s.run = .running ∧ s.fl = 0x01#8 ∧ (7 : Byte).toNat < 8 ∧ 8 ≤ (8 : Byte).toNat ∧ u.run = .running ∧ u.fl ≠ 0x01#8 := by
  decide
theorem witness_JneTakenIffFlagsAreNotOne :
    let s := at_ 0 [] |> flags 0; let u := at_ 0 [] |> flags 1
    s.run = .running ∧ s.fl ≠ 0x01#8 ∧ (7 : Byte).toNat < 8 ∧ 8 ≤ (8 : Byte).toNat ∧ u.run = .running ∧ u.fl = 0x01#8 := by
  decide

/-- Each of LDI, ADD, MUL: the instruction's own effect. -/
theorem witness_RegisterWritersFrame :
    (∃ t, exec (.ldi 7 1) (at_ 0 []) = .next t ∧ t.run = .running) ∧
      (∃ t, exec (.add 7 0) (at_ 0 []) = .next t ∧ t.run = .running) ∧
      (∃ t, exec (.mul 0 7) (at_ 0 []) = .next t ∧ t.run = .running) := ⟨⟨_, rfl, rfl⟩, ⟨_, rfl, rfl⟩, ⟨_, rfl, rfl⟩⟩
theorem witness_OutputCompareHaltFrame :
    (∃ t, exec (.prn 7) (at_ 0 []) = .next t ∧ t.run = .running) ∧
      (∃ t, exec (.cmp 7 0) (at_ 0 []) = .next t ∧ t.run = .running) ∧
      (∃ t, exec .hlt (at_ 0 []) = .next t ∧ t.run = .halted) := ⟨⟨_, rfl, rfl⟩, ⟨_, rfl, rfl⟩, ⟨_, rfl, rfl⟩⟩
theorem witness_PushCallFrame :
    (∃ t, exec (.push 1) (at_ 0 []) = .next t ∧ t.run = .running) ∧
      (∃ t, exec (.call 1) (at_ 6 []) = .next t ∧ t.run = .running) := ⟨⟨_, rfl, rfl⟩, ⟨_, rfl, rfl⟩⟩
theorem witness_PopFrame : ∃ t, exec (.pop 1) (at_ 253 []) = .next t ∧ t.run = .running := ⟨_, rfl, rfl⟩
theorem witness_JumpFrame :
    (∃ t, exec .ret (at_ 0 []) = .next t ∧ t.run = .running) ∧
      (∃ t, exec (.jmp 7) (at_ 0 []) = .next t ∧ t.run = .running) ∧
      (∃ t, exec (.jeq 7) (at_ 0 [] |> flags 1) = .next t ∧ t.run = .running) ∧
      (∃ t, exec (.jne 7) (at_ 0 []) = .next t ∧ t.run = .running) :=
  ⟨⟨_, rfl, rfl⟩, ⟨_, rfl, rfl⟩, ⟨_, rfl, rfl⟩, ⟨_, rfl, rfl⟩⟩

theorem witness_DecodeAndEncodeAreInverse : decodeBytes [0xA7, 0xFF, 0x08, 0x01] = .ok (.cmp 0xFF 0x08, [0x01]) := rfl

theorem witness_StepKeepsInvariant : ∃ t, Inv (at_ 253 [0x82, 7, 9]) ∧ step (at_ 253 [0x82, 7, 9]) = .next t :=
  ⟨_, ⟨by decide, by decide, .inl rfl⟩, rfl⟩
theorem witness_FaultRecordAgreesWithState :
    ∃ t, RecordMatches (at_ 256 []) ∧ step (at_ 256 []) = .next t ∧ t.run ≠ .running :=
  ⟨after (at_ 256 []), fun r h => by simp [at_] at h, rfl, by decide⟩
theorem witness_CanonicalMemoriesAreExtensional :
    ∃ m n : Memory, m.wf ∧ n.wf ∧ ∀ a < 256, m.read a = n.read a :=
  ⟨[(0, 1), (255, 2)], Memory.write (Memory.write [] 255 2) 0 1, by decide, by decide, fun _ _ => rfl⟩
/-- A running state at the given opcode whose step completes and goes on. -/
def completes (s : State) (m : Mnemonic) : Prop :=
  s.run = .running ∧ opcodeIs s m ∧ ∃ t, step s = .next t ∧ t.run = .running

/-- A running state, the PC in range, whose step faults. -/
def faults (s : State) : Prop :=
  s.run = .running ∧ s.pc.toNat ≤ 256 ∧ ∃ t f, step s = .next t ∧ t.run = .faulted f

/-- The PC clause: 254 and 256 fault, 253 runs. -/
theorem witness_StepFaultsExactlyAsListed :
    faults (at_ 254 [0x11]) ∧ faults (at_ 256 []) ∧ completes (at_ 253 [0x11]) .RET :=
  ⟨⟨rfl, by decide, _, _, rfl, rfl⟩, ⟨rfl, by decide, _, _, rfl, rfl⟩, rfl, rfl, _, rfl, rfl⟩

/-- The opcode clause: the byte after LDI's, with bit 5 clear, and the byte after CMP's, with bit 5 set. -/
theorem witness_StepFaultsExactlyAsListed_opcode :
    (∀ m, ¬opcodeIs (at_ 0 [0x83]) m) ∧ faults (at_ 0 [0x83]) ∧
      (∀ m, ¬opcodeIs (at_ 0 [0xA8]) m) ∧ faults (at_ 0 [0xA8]) :=
  ⟨fun m => by cases m <;> (unfold opcodeIs; decide), ⟨rfl, by decide, _, _, rfl, rfl⟩,
    fun m => by cases m <;> (unfold opcodeIs; decide), rfl, by decide, _, _, rfl, rfl⟩

/-- The clause of LDI, PRN and JMP: index 8 faults, index 7 completes. -/
theorem witness_StepFaultsExactlyAsListed_index :
    faults (at_ 0 [0x82, 8]) ∧ completes (at_ 0 [0x82, 7]) .LDI ∧ faults (at_ 0 [0x47, 8]) ∧
      completes (at_ 0 [0x47, 7]) .PRN ∧ faults (at_ 0 [0x54, 8]) ∧ completes (at_ 0 [0x54, 7]) .JMP :=
  ⟨⟨rfl, by decide, _, _, rfl, rfl⟩, ⟨rfl, rfl, _, rfl, rfl⟩, ⟨rfl, by decide, _, _, rfl, rfl⟩,
    ⟨rfl, rfl, _, rfl, rfl⟩, ⟨rfl, by decide, _, _, rfl, rfl⟩, rfl, rfl, _, rfl, rfl⟩

/-- The ALU's clause: 8 as either index faults, 7 as both completes. -/
theorem witness_StepFaultsExactlyAsListed_alu :
    faults (at_ 0 [0xA0, 8, 7]) ∧ faults (at_ 0 [0xA0, 7, 8]) ∧ completes (at_ 0 [0xA0, 7, 7]) .ADD ∧
      faults (at_ 0 [0xA2, 8, 7]) ∧ faults (at_ 0 [0xA2, 7, 8]) ∧ completes (at_ 0 [0xA2, 7, 7]) .MUL ∧
      faults (at_ 0 [0xA7, 8, 7]) ∧ faults (at_ 0 [0xA7, 7, 8]) ∧ completes (at_ 0 [0xA7, 7, 7]) .CMP :=
  ⟨⟨rfl, by decide, _, _, rfl, rfl⟩, ⟨rfl, by decide, _, _, rfl, rfl⟩, ⟨rfl, rfl, _, rfl, rfl⟩,
    ⟨rfl, by decide, _, _, rfl, rfl⟩, ⟨rfl, by decide, _, _, rfl, rfl⟩, ⟨rfl, rfl, _, rfl, rfl⟩,
    ⟨rfl, by decide, _, _, rfl, rfl⟩, ⟨rfl, by decide, _, _, rfl, rfl⟩, rfl, rfl, _, rfl, rfl⟩

/-- The branches' clauses: taken, index 8 faults and 7 completes; not taken, index 8 completes. -/
theorem witness_StepFaultsExactlyAsListed_branch :
    faults (at_ 0 [0x55, 8] |> flags 1) ∧ completes (at_ 0 [0x55, 7] |> flags 1) .JEQ ∧
      completes (at_ 0 [0x55, 8] |> flags 3) .JEQ ∧
      faults (at_ 0 [0x56, 8] |> flags 3) ∧ completes (at_ 0 [0x56, 7] |> flags 3) .JNE ∧
      completes (at_ 0 [0x56, 8] |> flags 1) .JNE :=
  ⟨⟨rfl, by decide, _, _, rfl, rfl⟩, ⟨rfl, rfl, _, rfl, rfl⟩, ⟨rfl, rfl, _, rfl, rfl⟩,
    ⟨rfl, by decide, _, _, rfl, rfl⟩, ⟨rfl, rfl, _, rfl, rfl⟩, rfl, rfl, _, rfl, rfl⟩

/-- The stack clauses at both ends of SP, and CALL's at 7 against 6. -/
theorem witness_StepFaultsExactlyAsListed_stack :
    faults (at_ 0 [0x45] |> reg 7 0) ∧ completes (at_ 0 [0x45] |> reg 7 1) .PUSH ∧
      faults (at_ 0 [0x50] |> reg 7 0) ∧ completes (at_ 0 [0x50] |> reg 7 1) .CALL ∧
      faults (at_ 0 [0x46] |> reg 7 255) ∧ completes (at_ 0 [0x46] |> reg 7 254) .POP ∧
      faults (at_ 0 [0x11] |> reg 7 255) ∧ completes (at_ 0 [0x11] |> reg 7 254) .RET ∧
      faults (at_ 7 [0x50]) ∧ completes (at_ 6 [0x50]) .CALL :=
  ⟨⟨rfl, by decide, _, _, rfl, rfl⟩, ⟨rfl, rfl, _, rfl, rfl⟩, ⟨rfl, by decide, _, _, rfl, rfl⟩,
    ⟨rfl, rfl, _, rfl, rfl⟩, ⟨rfl, by decide, _, _, rfl, rfl⟩, ⟨rfl, rfl, _, rfl, rfl⟩,
    ⟨rfl, by decide, _, _, rfl, rfl⟩, ⟨rfl, rfl, _, rfl, rfl⟩, ⟨rfl, by decide, _, _, rfl, rfl⟩, rfl, rfl, _, rfl, rfl⟩
theorem witness_FaultsArePrecise :
    ∃ t f, (at_ 7 [0x50, 1]).run = .running ∧ step (at_ 7 [0x50, 1]) = .next t ∧ t.run = .faulted f :=
  ⟨_, _, rfl, rfl, rfl⟩
theorem witness_OnlyHltHalts :
    ∃ t, (at_ 253 [1]).run = .running ∧ step (at_ 253 [1]) = .next t ∧ t.run = .halted := ⟨_, rfl, rfl, rfl⟩

theorem witness_FlagsWrittenByCmpReadByBranches :
    ((7 : Byte).toNat < 8 ∧ (at_ 0 []).run = .running) ∧
      (∃ t, (∀ a b, Instr.add 0 7 ≠ .cmp a b) ∧ exec (.add 0 7) (at_ 0 []) = .next t) ∧
      (∃ t, (∀ a, Instr.cmp 0 7 ≠ .jeq a ∧ Instr.cmp 0 7 ≠ .jne a) ∧ exec (.cmp 0 7) (at_ 0 []) = .next t) :=
  ⟨by decide, ⟨_, fun _ _ => by simp, rfl⟩, ⟨_, fun _ => by simp, rfl⟩⟩
theorem witness_LessAndGreaterAreIndistinguishable :
    ∃ t u, core.run 1 { at_ 0 [0x56, 0] with fl := 0x02#8 } = .next t ∧
      core.run 1 { at_ 0 [0x56, 0] with fl := 0x04#8 } = .next u := ⟨_, _, rfl, rfl⟩

theorem witness_RegistersChangeOnlyAsTabled :
    ∃ t u, step (at_ 0 [0x82, 6, 9]) = .next t ∧ t.getReg 6 ≠ (at_ 0 [0x82, 6, 9]).getReg 6 ∧
      step (at_ 0 [0x45, 6]) = .next u ∧ u.getReg 7 ≠ (at_ 0 [0x45, 6]).getReg 7 :=
  ⟨_, _, rfl, by decide, rfl, by decide⟩
theorem witness_MemoryChangesOnlyAsTabled :
    ∃ t u, (at_ 0 [0x45, 6]).mem.wf ∧ step (at_ 0 [0x45, 6]) = .next t ∧ t.mem.read 0xF3 ≠ (at_ 0 [0x45, 6]).mem.read 0xF3 ∧
      (at_ 0 [0x46, 6]).mem.wf ∧ step (at_ 0 [0x46, 6]) = .next u ∧ u.mem.read 1 ≠ (at_ 0 [0x46, 6]).mem.read 1 :=
  ⟨_, _, by decide, rfl, by decide, by decide, rfl, by decide⟩
theorem witness_OutputOnlyGrowsByPrn :
    ∃ t, (at_ 0 [0x47, 7]).run = .running ∧ step (at_ 0 [0x47, 7]) = .next t ∧ t.run = .running ∧
      opcodeIs (at_ 0 [0x47, 7]) .PRN := ⟨_, rfl, rfl, rfl, rfl⟩

theorem witness_PcAfterEachInstruction :
    completes (at_ 253 [0x82]) .LDI ∧ completes (at_ 253 [0xA0]) .ADD ∧ completes (at_ 253 [0xA2]) .MUL ∧
      completes (at_ 253 [0xA7]) .CMP ∧ completes (at_ 253 [0x47]) .PRN ∧ completes (at_ 253 [0x45]) .PUSH ∧
      completes (at_ 253 [0x46]) .POP ∧ completes (at_ 6 [0x50]) .CALL ∧ completes (at_ 253 [0x11]) .RET ∧
      completes (at_ 253 [0x54]) .JMP ∧ completes (at_ 253 [0x55] |> flags 1) .JEQ ∧ completes (at_ 253 [0x55, 9]) .JEQ ∧
      completes (at_ 253 [0x56]) .JNE ∧ completes (at_ 253 [0x56, 9] |> flags 1) .JNE :=
  ⟨⟨rfl, rfl, _, rfl, rfl⟩, ⟨rfl, rfl, _, rfl, rfl⟩, ⟨rfl, rfl, _, rfl, rfl⟩, ⟨rfl, rfl, _, rfl, rfl⟩,
    ⟨rfl, rfl, _, rfl, rfl⟩, ⟨rfl, rfl, _, rfl, rfl⟩, ⟨rfl, rfl, _, rfl, rfl⟩, ⟨rfl, rfl, _, rfl, rfl⟩,
    ⟨rfl, rfl, _, rfl, rfl⟩, ⟨rfl, rfl, _, rfl, rfl⟩, ⟨rfl, rfl, _, rfl, rfl⟩, ⟨rfl, rfl, _, rfl, rfl⟩,
    ⟨rfl, rfl, _, rfl, rfl⟩, ⟨rfl, rfl, _, rfl, rfl⟩⟩

/-- A PUSH onto the next opcode, and V72's CALL at 6. -/
theorem witness_StoreIsSeenByTheNextFetch :
    let s := at_ 0 [0x45, 1] |> reg 7 3
    (∃ t, s.mem.wf ∧ s.run = .running ∧ opcodeIs s .PUSH ∧ step s = .next t ∧ t.run = .running ∧
      t.pc.toNat + 1 = s.sp.toNat) ∧
    (∃ t, (at_ 6 [0x50, 1]).mem.wf ∧ opcodeIs (at_ 6 [0x50, 1]) .CALL ∧ step (at_ 6 [0x50, 1]) = .next t ∧
      t.run = .running ∧ t.pc.toNat + 1 = (at_ 6 [0x50, 1]).sp.toNat) :=
  ⟨⟨_, by decide, rfl, rfl, rfl, rfl, by decide⟩, ⟨_, by decide, rfl, rfl, rfl, by decide⟩⟩

/-- S4 at the bottom of the stack's range: `SP = 1`, the POP standing right after the PUSH. -/
theorem witness_PushPopRoundTrip :
    let s := at_ 4 [] |> reg 7 1
    ∃ t, s.mem.wf ∧ s.run = .running ∧ 1 ≤ s.sp.toNat ∧ exec (.push 0x2A) s = .next t ∧ t.mem.wf ∧ t.run = .running ∧
      t.pc.toNat ≤ 253 := ⟨_, by decide, rfl, by decide, rfl, by decide, rfl, by decide⟩

theorem witness_StackPointerIsAnOrdinaryRegister :
    (7 : Byte).toNat < 8 ∧ (at_ 0 [] |> flags 1).run = .running ∧ (at_ 0 [] |> flags 1).fl = 0x01#8 ∧
      (at_ 0 []).run = .running ∧ (at_ 0 []).fl ≠ 0x01#8 := by decide

theorem witness_StartOnlyLeavesIdle :
    State.reset.run = .idle ∧ (at_ 0 []).run ≠ .idle ∧ (∃ s, loadLines [] State.reset = .ok s) ∧
      ∃ s, loadLines [['1', '0', '0', '0', '0', '0', '1', '0']] State.reset = .ok s ∧ s.mem.read 0 = 0x82 :=
  ⟨rfl, by decide, ⟨_, rfl⟩, ⟨_, rfl, by decide⟩⟩

theorem witness_LoaderLineYieldsItsByte :
    ((['1', '0', '0', '0', ' ', '0', '0', '1', '0'].take 8).filter isDigitChar).length ≠ 8 ∧
      ('/' : Char).toNat < 128 ∧ (':' : Char).toNat < 128 := by decide
theorem witness_LoaderFillsFromAddressZero :
    ∃ t, State.reset.mem.wf ∧ loadLines [['#'], ['0', '0', '0', '0', '0', '0', '0', '1']] State.reset = .ok t ∧
      t.mem.read 0 = 1 := ⟨_, by decide, rfl, by decide⟩
theorem witness_LoaderRefusals :
    (lineDigits ['0', '0', '0', '0', '0', '0', '1', '2']).length = 8 ∧
      (∃ c ∈ lineDigits ['0', '0', '0', '0', '0', '0', '1', '2'], c ≠ '0' ∧ c ≠ '1') ∧ State.reset.run = .idle := by
  refine ⟨by decide, ⟨'2', by decide, by decide, by decide⟩, rfl⟩
theorem witness_LoaderRefusals_tooLong :
    ∃ bytes, readLines (List.replicate 257 ['0', '0', '0', '0', '0', '0', '0', '1']) = .ok bytes ∧ 256 < bytes.length := by
  have all : ∀ n, readLines (List.replicate n ['0', '0', '0', '0', '0', '0', '0', '1']) = .ok (List.replicate n 1) := by
    intro n
    induction n with
    | zero => rfl
    | succ n ih => rw [List.replicate_succ, readLines, ih]; rfl
  refine ⟨_, all 257, ?_⟩
  rw [List.length_replicate]
  omega

end Sys2Proof.Tests
end

/-!
PROOFS. What each register, output and branch instruction answers when it completes, and where the flags register
enters a handler (spec/10_state.md R22, R28).
-/

namespace Sys2Proof.Machine

/-! ### An instruction is its handler in the frame of `runInstr` -/

/-- The handler that `exec` runs for an instruction; `exec_eq_runInstr` ties it to the model. -/
def handlerOf : Instr → State → Except Fault State
  | .ldi a imm => ldiHandler a imm
  | .prn a => prnHandler a
  | .hlt => hltHandler
  | .add a b => addHandler a b
  | .mul a b => mulHandler a b
  | .cmp a b => cmpHandler a b
  | .push imm => pushByte imm
  | .pop _ => popHandler
  | .call imm => callHandler imm
  | .ret => retHandler
  | .jmp a => jumpToRegister a.toNat
  | .jeq a => jeqHandler a
  | .jne a => jneHandler a

theorem exec_eq_runInstr (i : Instr) (s : State) : exec i s = runInstr i.opcode (handlerOf i) s := by
  cases i <;> rfl

/-- An instruction that does not set the PC completes with the PC past its operands. -/
theorem runInstr_ok_advance {m : Mnemonic} {h : State → Except Fault State} {s t : State} {n : Nat}
    (hn : nops (opcodeMap m) = n) (hc : setsPc (opcodeMap m) = false) (e : h s = .ok t)
    (hr : t.run = .running) :
    runInstr (opcodeMap m) h s = .next (t.setPc (t.pc + BitVec.ofNat 9 (n + 1))) := by
  rw [runInstr_ok e, pcUpdate_advance (by simp [hr]) hc, hn]

/-- An instruction that sets the PC completes with what its handler leaves. -/
theorem runInstr_ok_setsPc {m : Mnemonic} {h : State → Except Fault State} {s t : State}
    (hc : setsPc (opcodeMap m) = true) (e : h s = .ok t) : runInstr (opcodeMap m) h s = .next t := by
  rw [runInstr_ok e, pcUpdate_setsPc t hc]

/-! ### Handlers whose registers exist -/

theorem ldiHandler_ok {a : Byte} (imm : Byte) (s : State) (ha : a.toNat < 8) :
    ldiHandler a imm s = .ok (s.setReg ⟨a.toNat, ha⟩ imm) := by
  rw [ldiHandler, checkReg_ok ha]; rfl

theorem prnHandler_ok {a : Byte} (s : State) (ha : a.toNat < 8) :
    prnHandler a s = .ok (s.emit s.regs[a.toNat]) := by
  rw [prnHandler, readReg_ok s ha]; rfl

theorem narrow_toNat_add (x y : Byte) : narrow (x.toNat + y.toNat) = x + y := by
  simp [narrow, BitVec.ofNat_add]

theorem narrow_toNat_mul (x y : Byte) : narrow (x.toNat * y.toNat) = x * y := by
  simp [narrow, BitVec.ofNat_mul]

theorem addHandler_ok {a b : Byte} (s : State) (ha : a.toNat < 8) (hb : b.toNat < 8) :
    addHandler a b s = .ok (s.setReg ⟨a.toNat, ha⟩ (s.regs[a.toNat] + s.regs[b.toNat])) := by
  rw [addHandler, aluOperands_ok ha hb, ← narrow_toNat_add]; rfl

theorem mulHandler_ok {a b : Byte} (s : State) (ha : a.toNat < 8) (hb : b.toNat < 8) :
    mulHandler a b s = .ok (s.setReg ⟨a.toNat, ha⟩ (s.regs[a.toNat] * s.regs[b.toNat])) := by
  rw [mulHandler, aluOperands_ok ha hb, ← narrow_toNat_mul]; rfl

theorem cmpHandler_ok {a b : Byte} (s : State) (ha : a.toNat < 8) (hb : b.toNat < 8) :
    cmpHandler a b s = .ok (s.setFl (compareFlags s.regs[a.toNat] s.regs[b.toNat])) := by
  rw [cmpHandler, aluOperands_ok ha hb]; rfl

theorem jeqHandler_eq (a : Byte) (s : State) :
    jeqHandler a s = if s.fl = 0x01#8 then jumpToRegister a.toNat s else .ok (skipBranch s) := by
  simp only [jeqHandler, flagsSayEqual_iff]

theorem jneHandler_eq (a : Byte) (s : State) :
    jneHandler a s = if s.fl = 0x01#8 then .ok (skipBranch s) else jumpToRegister a.toNat s := by
  simp only [jneHandler, flagsSayEqual_iff]

/-! ### Instructions whose registers exist, on a running core -/

section Completion

variable {a b : Byte} {s : State} (hr : s.run = .running) (ha : a.toNat < 8) (hb : b.toNat < 8)

include hr in
theorem exec_ldi_ok (imm : Byte) :
    exec (.ldi a imm) s = .next { s with regs := s.regs.set a.toNat imm ha, pc := s.pc + 3#9 } :=
  runInstr_ok_advance (nops_opcodeMap .LDI) (by decide) (ldiHandler_ok imm s ha) hr

include hr in
theorem exec_prn_ok : exec (.prn a) s = .next { s with out := s.out ++ [s.regs[a.toNat]], pc := s.pc + 2#9 } :=
  runInstr_ok_advance (nops_opcodeMap .PRN) (by decide) (prnHandler_ok s ha) hr

include hr in
theorem exec_add_ok : exec (.add a b) s =
    .next { s with regs := s.regs.set a.toNat (s.regs[a.toNat] + s.regs[b.toNat]) ha, pc := s.pc + 3#9 } :=
  runInstr_ok_advance (nops_opcodeMap .ADD) (by decide) (addHandler_ok s ha hb) hr

include hr in
theorem exec_mul_ok : exec (.mul a b) s =
    .next { s with regs := s.regs.set a.toNat (s.regs[a.toNat] * s.regs[b.toNat]) ha, pc := s.pc + 3#9 } :=
  runInstr_ok_advance (nops_opcodeMap .MUL) (by decide) (mulHandler_ok s ha hb) hr

include hr in
theorem exec_cmp_ok : exec (.cmp a b) s =
    .next { s with fl := compareFlags s.regs[a.toNat] s.regs[b.toNat], pc := s.pc + 3#9 } :=
  runInstr_ok_advance (nops_opcodeMap .CMP) (by decide) (cmpHandler_ok s ha hb) hr

theorem exec_jmp_ok : exec (.jmp a) s = .next { s with pc := s.regs[a.toNat].setWidth 9 } :=
  runInstr_ok_setsPc (m := .JMP) (by decide) (jumpToRegister_ok s ha)

theorem exec_jeq_ok : exec (.jeq a) s =
    .next { s with pc := if s.fl = 0x01#8 then s.regs[a.toNat].setWidth 9 else s.pc + 2#9 } := by
  refine runInstr_ok_setsPc (m := .JEQ) (by decide) ((jeqHandler_eq a s).trans ?_)
  rw [jumpToRegister_ok s ha]
  split <;> rfl

theorem exec_jne_ok : exec (.jne a) s =
    .next { s with pc := if s.fl = 0x01#8 then s.pc + 2#9 else s.regs[a.toNat].setWidth 9 } := by
  refine runInstr_ok_setsPc (m := .JNE) (by decide) ((jneHandler_eq a s).trans ?_)
  rw [jumpToRegister_ok s ha]
  split <;> rfl

end Completion

/-! ### Handlers that neither write nor read the flags register -/

/-- Replacing `FL` before the handler is replacing it after: the handler does not read, copy or write it. -/
def FlTransparent (h : State → Except Fault State) : Prop :=
  ∀ s v, h (s.setFl v) = (h s).map (·.setFl v)

theorem FlTransparent.bind {g h : State → Except Fault State} (hg : FlTransparent g) (hh : FlTransparent h) :
    FlTransparent fun s => g s >>= h := by
  intro s v
  simp only [hg s v]
  cases g s with
  | error f => rfl
  | ok t => exact hh t v

/-- It keeps `FL`: replacing `FL` by itself changes nothing. -/
theorem FlTransparent.fl_eq {h : State → Except Fault State} (hh : FlTransparent h) {s t : State}
    (e : h s = .ok t) : t.fl = s.fl := by
  have same : h s = (h s).map (·.setFl s.fl) := hh s s.fl
  rw [e] at same
  have same : t = t.setFl s.fl := Except.ok.inj same
  rw [same, State.setFl_fl]

theorem State.memWrite_setFl (s : State) (addr : Int) (w v : Byte) :
    (s.setFl v).memWrite addr w = (s.memWrite addr w).map (·.setFl v) := by
  unfold State.memWrite
  split <;> rfl

theorem ldiHandler_flTransparent (a imm : Byte) : FlTransparent (ldiHandler a imm) := by
  intro s v
  unfold ldiHandler
  cases checkReg a.toNat <;> rfl

theorem prnHandler_flTransparent (a : Byte) : FlTransparent (prnHandler a) := by
  intro s v
  unfold prnHandler readReg
  cases checkReg a.toNat <;> rfl

theorem hltHandler_flTransparent : FlTransparent hltHandler := fun _ _ => rfl

theorem addHandler_flTransparent (a b : Byte) : FlTransparent (addHandler a b) := by
  intro s v
  unfold addHandler
  cases aluOperands a b <;> rfl

theorem mulHandler_flTransparent (a b : Byte) : FlTransparent (mulHandler a b) := by
  intro s v
  unfold mulHandler
  cases aluOperands a b <;> rfl

theorem pushByte_flTransparent (imm : Byte) : FlTransparent (pushByte imm) := by
  intro s v
  have address : pushAddress (s.setFl v) = pushAddress s := rfl
  simp only [pushByte, address, State.memWrite_setFl]
  cases s.memWrite (pushAddress s) imm <;> rfl

theorem incrementSp_flTransparent : FlTransparent incrementSp := by
  intro s v
  have address : popAddress (s.setFl v) = popAddress s := rfl
  simp only [incrementSp, address]
  split <;> rfl

theorem jumpToRegister_flTransparent (b : Nat) : FlTransparent (jumpToRegister b) := by
  intro s v
  unfold jumpToRegister readReg
  cases checkReg b <;> rfl

/-- The store of a POP, before its increment of the stack pointer. -/
theorem popHandler_eq (s : State) :
    popHandler s = s.memWrite (operandCell s) (s.mem.read s.sp.toNat) >>= incrementSp := by
  rw [popHandler, memRead_popAddress]; rfl

theorem popHandler_flTransparent : FlTransparent popHandler := by
  rw [funext popHandler_eq]
  exact FlTransparent.bind (fun s v => s.memWrite_setFl _ _ v) incrementSp_flTransparent

theorem callHandler_flTransparent (imm : Byte) : FlTransparent (callHandler imm) :=
  (pushByte_flTransparent imm).bind fun s => jumpToRegister_flTransparent (callRegister s) s

theorem retHandler_eq (s : State) :
    retHandler s = incrementSp s >>= fun t => .ok (t.setPc (jumpTarget (s.mem.read s.sp.toNat))) := by
  rw [retHandler, memRead_popAddress]; rfl

theorem retHandler_flTransparent : FlTransparent retHandler := by
  intro s v
  rw [retHandler_eq, retHandler_eq, incrementSp_flTransparent s v]
  cases incrementSp s <;> rfl

/-- Every handler but CMP's, JEQ's and JNE's neither writes nor reads `FL`. -/
theorem handlerOf_flTransparent {i : Instr} (hc : ∀ a b, i ≠ .cmp a b) (hj : ∀ a, i ≠ .jeq a ∧ i ≠ .jne a) :
    FlTransparent (handlerOf i) := by
  cases i with
  | ldi a imm => exact ldiHandler_flTransparent a imm
  | prn a => exact prnHandler_flTransparent a
  | hlt => exact hltHandler_flTransparent
  | add a b => exact addHandler_flTransparent a b
  | mul a b => exact mulHandler_flTransparent a b
  | cmp a b => exact absurd rfl (hc a b)
  | push imm => exact pushByte_flTransparent imm
  | pop imm => exact popHandler_flTransparent
  | call imm => exact callHandler_flTransparent imm
  | ret => exact retHandler_flTransparent
  | jmp a => exact jumpToRegister_flTransparent a.toNat
  | jeq a => exact absurd rfl (hj a).1
  | jne a => exact absurd rfl (hj a).2

/-- CMP overwrites all of `FL`: what was there before does not matter. -/
theorem cmpHandler_setFl (a b v : Byte) (s : State) : cmpHandler a b (s.setFl v) = cmpHandler a b s := by
  unfold cmpHandler
  cases aluOperands a b <;> rfl

/-- Every handler but CMP's keeps `FL`. -/
theorem handlerOf_fl {i : Instr} (hc : ∀ a b, i ≠ .cmp a b) {s t : State} (e : handlerOf i s = .ok t) :
    t.fl = s.fl := by
  by_cases hj : ∀ a, i ≠ .jeq a ∧ i ≠ .jne a
  · exact (handlerOf_flTransparent hc hj).fl_eq e
  · simp only [not_forall, not_and_or, not_not] at hj
    obtain ⟨a, rfl | rfl⟩ := hj
    · obtain ⟨-, -, rfl⟩ | ⟨-, rfl⟩ := jeqHandler_cases e <;> rfl
    · obtain ⟨-, -, rfl⟩ | ⟨-, rfl⟩ := jneHandler_cases e <;> rfl

/-! ### The flags register across an instruction -/

theorem pcUpdate_setFl (ir v : Byte) (s : State) : pcUpdate ir (s.setFl v) = (pcUpdate ir s).setFl v := by
  simp only [pcUpdate, State.setFl_run, apply_ite (State.setFl · v)]
  rfl

theorem runInstr_setFl {ir : Byte} {h : State → Except Fault State} (hh : FlTransparent h) {s t : State} (v : Byte)
    (e : runInstr ir h s = .next t) : runInstr ir h (s.setFl v) = .next (t.setFl v) := by
  obtain ⟨t, ht, rfl⟩ | ⟨f, hf, rfl⟩ := runInstr_cases e
  · have ht' : h (s.setFl v) = .ok (t.setFl v) := by rw [hh s v, ht]; rfl
    rw [runInstr_ok ht', pcUpdate_setFl]
  · have hf' : h (s.setFl v) = .error f := by rw [hh s v, hf]; rfl
    exact runInstr_error hf'

/-- Only CMP changes `FL`, whether the instruction completes or faults. -/
theorem exec_fl {i : Instr} (hc : ∀ a b, i ≠ .cmp a b) {s t : State} (e : exec i s = .next t) : t.fl = s.fl := by
  rw [exec_eq_runInstr] at e
  obtain ⟨u, hu, rfl⟩ | ⟨f, -, rfl⟩ := runInstr_cases e
  · rw [pcUpdate_fl, handlerOf_fl hc hu]
  · rfl

/-- A CMP from a replaced `FL` answers the same in everything but `FL`. -/
theorem exec_cmp_setFl {a b : Byte} {s t : State} (v : Byte) (e : exec (.cmp a b) s = .next t) :
    ∃ u, exec (.cmp a b) (s.setFl v) = .next u ∧ u.setFl 0x00#8 = t.setFl 0x00#8 := by
  rw [exec_eq_runInstr] at e ⊢
  obtain ⟨t, ht, rfl⟩ | ⟨f, hf, rfl⟩ := runInstr_cases e
  · exact ⟨_, runInstr_ok ((cmpHandler_setFl a b v s).trans ht), rfl⟩
  · exact ⟨_, runInstr_error ((cmpHandler_setFl a b v s).trans hf), rfl⟩

/-- Only JEQ and JNE read `FL`: any other instruction answers the same in everything but `FL`. -/
theorem exec_setFl {i : Instr} (hj : ∀ a, i ≠ .jeq a ∧ i ≠ .jne a) {s t : State} (v : Byte)
    (e : exec i s = .next t) :
    ∃ u, exec i (s.setFl v) = .next u ∧ u.setFl 0x00#8 = t.setFl 0x00#8 := by
  by_cases hc : ∀ a b, i ≠ .cmp a b
  · rw [exec_eq_runInstr] at e ⊢
    exact ⟨t.setFl v, runInstr_setFl (handlerOf_flTransparent hc hj) v e, rfl⟩
  · simp only [not_forall, not_not] at hc
    obtain ⟨a, b, rfl⟩ := hc
    exact exec_cmp_setFl v e

/-! ### The obligations -/

/-- Settles O34: CMP's completion, then the transparency to `FL` of every handler but CMP's, JEQ's and JNE's. -/
theorem flagsWrittenByCmpReadByBranches : Obligations.FlagsWrittenByCmpReadByBranches := by
  refine ⟨fun a b s ha hb hr => ?cmpWrites, fun i s t hc e => ?othersKeep, fun i v s t hj e => ?othersIgnore,
    fun a s ha _ => ?branchesRead⟩
  case cmpWrites => exact ⟨_, exec_cmp_ok hr ha hb, rfl⟩
  case othersKeep => exact exec_fl hc e
  case othersIgnore => exact exec_setFl hj v e
  case branchesRead => exact ⟨exec_jeq_ok ha, exec_jne_ok ha⟩

/-- Settles O42: the completion lemmas, at register 7. -/
theorem stackPointerIsAnOrdinaryRegister : Obligations.StackPointerIsAnOrdinaryRegister := by
  intro r s h hr
  have h7 : (7#8 : Byte).toNat < 8 := by decide
  refine ⟨exec_ldi_ok hr h7 r, exec_prn_ok hr h7, exec_add_ok hr h7 h, exec_add_ok hr h h7, exec_mul_ok hr h7 h,
    exec_mul_ok hr h h7, exec_cmp_ok hr h7 h, exec_cmp_ok hr h h7, exec_jmp_ok h7, fun hf => ?_, fun hf => ?_⟩
  · rw [exec_jeq_ok h7, if_pos hf]; rfl
  · rw [exec_jne_ok h7, if_neg hf]; rfl

end Sys2Proof.Machine

/-!
PROOFS. What PUSH and POP answer when they complete, and the round trip of the two (spec/43_stack.md R160 to R162).
-/

namespace Sys2Proof.Machine

/-! ### PUSH and POP on a running core -/

theorem popHandler_ok {s : State} (hsp : s.sp.toNat < 255) (hpc : s.pc.toNat ≤ 254) :
    popHandler s =
      .ok ((s.setMem (s.mem.write (s.pc.toNat + 1) (s.mem.read s.sp.toNat))).setReg 7 (s.sp + 1#8)) := by
  have cell : operandCell s = ((s.pc.toNat + 1 : Nat) : Int) := rfl
  rw [popHandler_eq, cell, State.memWrite_ok s _ (by omega)]
  exact incrementSp_ok hsp

theorem exec_push_ok {s : State} (imm : Byte) (hr : s.run = .running) (hsp : 1 ≤ s.sp.toNat) :
    exec (.push imm) s = .next { s with
      mem := s.mem.write (s.sp.toNat - 1) imm, regs := s.regs.set 7 (s.sp - 1#8), pc := s.pc + 2#9 } :=
  runInstr_ok_advance (nops_opcodeMap .PUSH) (by decide) (pushByte_ok imm hsp) hr

theorem exec_pop_ok {s : State} (imm : Byte) (hr : s.run = .running) (hsp : s.sp.toNat < 255)
    (hpc : s.pc.toNat ≤ 254) :
    exec (.pop imm) s = .next { s with
      mem := s.mem.write (s.pc.toNat + 1) (s.mem.read s.sp.toNat), regs := s.regs.set 7 (s.sp + 1#8),
      pc := s.pc + 2#9 } :=
  runInstr_ok_advance (nops_opcodeMap .POP) (by decide) (popHandler_ok hsp hpc) hr

/-! ### A cell copied onto another -/

/-- Copying a cell leaves the cell copied as it was, also where the copy lands on it. -/
theorem Memory.read_write_self {m : Memory} (h : m.wf) (a b : Nat) : (m.write b (m.read a)).read a = m.read a := by
  by_cases e : a = b
  · subst e; exact Memory.read_write_same a _ h.1
  · exact Memory.read_write_ne m _ e

/-! ### The obligation -/

/-- Settles O41: PUSH leaves `SP = s - 1`, so the POP reads `MEM[s-1]`, copies it to its operand cell and puts `SP`
back to `s`. -/
theorem pushPopRoundTrip : Obligations.PushPopRoundTrip := by
  intro imm any s t u hs hrs hsp push hu hru hpc same
  rw [exec_push_ok imm hrs hsp] at push
  cases push
  have spU : u.sp = s.sp - 1#8 := same.trans (s.sp_setReg_seven _)
  have slot : u.sp.toNat = s.sp.toNat - 1 := by rw [spU]; bv_omega
  have spBack : u.sp + 1#8 = s.sp := by rw [spU, BitVec.sub_add_cancel]
  have room : u.sp.toNat < 255 := by have := s.sp_toNat_lt; omega
  refine ⟨_, exec_pop_ok any hru room (by omega), hru, ?spReturns, fun kept => ?byteArrives, ?cellKept⟩
  case spReturns => exact (u.sp_setReg_seven _).trans spBack
  case byteArrives =>
    calc (u.mem.write (u.pc.toNat + 1) (u.mem.read u.sp.toNat)).read (u.pc.toNat + 1)
      _ = u.mem.read u.sp.toNat := Memory.read_write_same _ _ hu.1
      _ = (s.mem.write (s.sp.toNat - 1) imm).read (s.sp.toNat - 1) := by rw [slot, kept]
      _ = imm := Memory.read_write_same _ _ hs.1
  case cellKept =>
    rw [← slot]
    exact Memory.read_write_self hu _ _

end Sys2Proof.Machine


/-!
PROOFS. What an accepted load has read and where its bytes stand (spec/70_reset_and_hazards.md R236, R238, R239).
-/

namespace Sys2Proof.Machine

/-! ### A computation after another -/

/-- A sequence of two computations answers only where both do. -/
theorem bind_ok {ε α β : Type} {x : Except ε α} {f : α → Except ε β} {b : β}
    (e : x >>= f = .ok b) : ∃ a, x = .ok a ∧ f a = .ok b := by
  cases x with
  | error r => cases e
  | ok a => exact ⟨a, rfl, e⟩

/-! ### What the lines yield -/

/-- The byte of an accepted line; none for a line that is skipped or refused. -/
def lineByte (line : List Char) : Option Byte := (readLine line).toOption.join

theorem lineByte_of_readLine_ok {line : List Char} {first : Option Byte} (e : readLine line = .ok first) :
    lineByte line = first := by
  rw [lineByte, e]; rfl

theorem readLines_cons_ok {line : List Char} {lines : List (List Char)} {bytes : List Byte}
    (e : readLines (line :: lines) = .ok bytes) :
    ∃ first rest, readLine line = .ok first ∧ readLines lines = .ok rest ∧ bytes = first.toList ++ rest := by
  obtain ⟨first, hfirst, e⟩ := bind_ok e
  obtain ⟨rest, hrest, e⟩ := bind_ok e
  exact ⟨first, rest, hfirst, hrest, (Except.ok.inj e).symm⟩

/-- Lines that are read to the end hold no refused line, and their bytes are those of the accepted lines. -/
theorem readLines_ok {lines : List (List Char)} {bytes : List Byte} (e : readLines lines = .ok bytes) :
    (∀ line ∈ lines, readLine line = .ok (lineByte line)) ∧ bytes = lines.filterMap lineByte := by
  induction lines generalizing bytes with
  | nil => exact ⟨by simp, (Except.ok.inj e).symm⟩
  | cons line lines ih =>
    obtain ⟨first, rest, hfirst, hrest, rfl⟩ := readLines_cons_ok e
    obtain ⟨read, rfl⟩ := ih hrest
    have byte : lineByte line = first := lineByte_of_readLine_ok hfirst
    refine ⟨List.forall_mem_cons.mpr ⟨byte ▸ hfirst, read⟩, ?_⟩
    rw [List.filterMap_cons, byte]
    cases first <;> rfl

/-! ### What a load stores -/

theorem loadBytes_ok {bytes : List Byte} {s t : State} (e : loadBytes bytes s = .ok t) :
    s.run = .idle ∧ bytes.length ≤ 256 ∧ t = s.setMem (s.mem.writeList 0 bytes) := by
  unfold loadBytes at e
  split at e
  · cases e
  · next idle =>
    split at e
    · cases e
    · next fits => exact ⟨not_not.mp idle, not_lt.mp fits, (Except.ok.inj e).symm⟩

theorem loadLines_ok {lines : List (List Char)} {s t : State} (e : loadLines lines s = .ok t) :
    ∃ bytes, readLines lines = .ok bytes ∧ loadBytes bytes s = .ok t := bind_ok e

/-! ### The obligation -/

/-- Settles O45: the lines are read as `readLines_ok` says, and the one change `loadBytes_ok` leaves is a `writeList`
from address 0. -/
theorem loaderFillsFromAddressZero : Obligations.LoaderFillsFromAddressZero := by
  intro lines s t hs load
  obtain ⟨bytes, read, store⟩ := loadLines_ok load
  obtain ⟨accepted, bytesEq⟩ := readLines_ok read
  obtain ⟨idle, fits, rfl⟩ := loadBytes_ok store
  refine ⟨bytes, List.map_congr_left accepted, bytesEq, fun k hk => ?inside, fun a ha => ?above, idle, fits, rfl⟩
  case inside =>
    have placed := Memory.read_writeList_inside hs (a := 0) (by omega) k hk
    rwa [Nat.zero_add] at placed
  case above => exact Memory.read_writeList_outside bytes (by omega)

end Sys2Proof.Machine

/-!
PROOFS. Decoding and encoding are inverse (spec/30_encoding.md R80 to R92).
-/

namespace Sys2Proof

theorem nops_opcode (i : Instr) : nops i.opcode = i.operands.length :=
  (nops_opcodeMap i.mnemonic).trans (by cases i <;> rfl)

theorem operands_length_le (i : Instr) : i.operands.length ≤ 2 := by
  cases i <;> simp [Instr.operands]

/-- An instruction's own operand bytes, latched with any bytes after them, decode to it. -/
theorem decode_operands_append (i : Instr) (rest : List Byte) :
    decode i.opcode ((i.operands ++ rest).getD 0 0) ((i.operands ++ rest).getD 1 0) = .ok i :=
  (decode_opcodeMap i.mnemonic _ _).trans (by cases i <;> rfl)

theorem decodeBytes_encode_append (i : Instr) (rest : List Byte) :
    decodeBytes (encode i ++ rest) = .ok (i, rest) := by
  have enough : ¬(i.operands ++ rest).length < nops i.opcode := by simp [nops_opcode]
  have left : (i.operands ++ rest).drop (nops i.opcode) = rest := by rw [nops_opcode, List.drop_left]
  simp only [encode, List.cons_append, decodeBytes, decode_operands_append, if_neg enough, left]

/-- The operand bytes of a decoded instruction are the first `nops` of the latched ones. -/
theorem operands_of_decode {ir a b : Byte} {i : Instr} (e : decode ir a b = .ok i) :
    i.operands = [a, b].take (nops ir) := by
  obtain ⟨rfl, rows⟩ := decode_cases e
  rw [nops_opcode]
  rcases rows with rfl | rfl | rfl | rfl | rfl | rfl | rfl | rfl | rfl | rfl | rfl | rfl | rfl <;> rfl

/-- The latched bytes, cut to as many as there are, are the bytes themselves. -/
theorem take_latched {bytes : List Byte} {n : Nat} (two : n ≤ 2) (enough : n ≤ bytes.length) :
    [bytes.getD 0 0, bytes.getD 1 0].take n = bytes.take n := by
  match n, bytes with
  | 0, _ => rfl
  | 1, a :: _ => rfl
  | 2, a :: b :: _ => rfl

theorem decodeBytes_ok {bytes rest : List Byte} {i : Instr} (e : decodeBytes bytes = .ok (i, rest)) :
    ∃ ir tail, bytes = ir :: tail ∧ decode ir (tail.getD 0 0) (tail.getD 1 0) = .ok i ∧ nops ir ≤ tail.length ∧
      rest = tail.drop (nops ir) := by
  cases bytes with
  | nil => cases e
  | cons ir tail =>
    cases decoded : decode ir (tail.getD 0 0) (tail.getD 1 0) with
    | error d => simp only [decodeBytes, decoded] at e; cases e
    | ok j =>
      simp only [decodeBytes, decoded] at e
      split at e
      · cases e
      · next enough => cases e; exact ⟨ir, tail, rfl, decoded, not_lt.1 enough, rfl⟩

theorem eq_encode_append_of_decodeBytes {bytes rest : List Byte} {i : Instr}
    (e : decodeBytes bytes = .ok (i, rest)) : bytes = encode i ++ rest := by
  obtain ⟨ir, tail, rfl, decoded, enough, rfl⟩ := decodeBytes_ok e
  have opcode : ir = i.opcode := (decode_cases decoded).1
  have two : nops ir ≤ 2 := by rw [opcode, nops_opcode]; exact operands_length_le i
  have operands : i.operands = tail.take (nops ir) := (operands_of_decode decoded).trans (take_latched two enough)
  rw [encode, operands, ← opcode, List.cons_append, List.take_append_drop]

/-- Settles O26: each direction is a lemma about `decodeBytes`. -/
theorem decodeAndEncodeAreInverse : Obligations.DecodeAndEncodeAreInverse :=
  ⟨decodeBytes_encode_append, fun _ _ _ => eq_encode_append_of_decodeBytes⟩

end Sys2Proof

/-!
PROOFS. Everything a completed instruction can leave, and everything a step can answer (spec/40_fetch_decode_dispatch.md
R110 to R118).
-/

namespace Sys2Proof.Machine

open Sys2Proof.Safety

/-! ### What a completed instruction leaves -/

/-- `Effect s i u`: from `s` the handler of `i` raises nothing and leaves `u`, the PC update still to come.
`handlerOf_ok_iff` ties it to the model. -/
inductive Effect (s : State) : Instr → State → Prop where
  | ldi {a imm : Byte} (ha : a.toNat < 8) : Effect s (.ldi a imm) (s.setReg ⟨a.toNat, ha⟩ imm)
  | prn {a : Byte} (ha : a.toNat < 8) : Effect s (.prn a) (s.emit s.regs[a.toNat])
  | hlt : Effect s .hlt (s.setRun .halted)
  | add {a b : Byte} (ha : a.toNat < 8) (hb : b.toNat < 8) :
      Effect s (.add a b) (s.setReg ⟨a.toNat, ha⟩ (s.regs[a.toNat] + s.regs[b.toNat]))
  | mul {a b : Byte} (ha : a.toNat < 8) (hb : b.toNat < 8) :
      Effect s (.mul a b) (s.setReg ⟨a.toNat, ha⟩ (s.regs[a.toNat] * s.regs[b.toNat]))
  | cmp {a b : Byte} (ha : a.toNat < 8) (hb : b.toNat < 8) :
      Effect s (.cmp a b) (s.setFl (compareFlags s.regs[a.toNat] s.regs[b.toNat]))
  | push {imm : Byte} (hsp : 1 ≤ s.sp.toNat) :
      Effect s (.push imm) ((s.setMem (s.mem.write (s.sp.toNat - 1) imm)).setReg 7 (s.sp - 1#8))
  | pop {imm : Byte} (hsp : s.sp.toNat < 255) (hpc : s.pc.toNat ≤ 254) :
      Effect s (.pop imm)
        ((s.setMem (s.mem.write (s.pc.toNat + 1) (s.mem.read s.sp.toNat))).setReg 7 (s.sp + 1#8))
  | call {imm : Byte} (hsp : 1 ≤ s.sp.toNat) (hpc : s.pc.toNat + 1 < 8) :
      Effect s (.call imm) (((s.setMem (s.mem.write (s.sp.toNat - 1) imm)).setReg 7 (s.sp - 1#8)).setPc
        (((s.regs.set 7 (s.sp - 1#8))[s.pc.toNat + 1]).setWidth 9))
  | ret (hsp : s.sp.toNat < 255) :
      Effect s .ret ((s.setReg 7 (s.sp + 1#8)).setPc ((s.mem.read s.sp.toNat).setWidth 9))
  | jmp {a : Byte} (ha : a.toNat < 8) : Effect s (.jmp a) (s.setPc (s.regs[a.toNat].setWidth 9))
  | jeqTaken {a : Byte} (hf : s.fl = 0x01#8) (ha : a.toNat < 8) :
      Effect s (.jeq a) (s.setPc (s.regs[a.toNat].setWidth 9))
  | jeqSkip {a : Byte} (hf : s.fl ≠ 0x01#8) : Effect s (.jeq a) (s.setPc (s.pc + 2#9))
  | jneTaken {a : Byte} (hf : s.fl ≠ 0x01#8) (ha : a.toNat < 8) :
      Effect s (.jne a) (s.setPc (s.regs[a.toNat].setWidth 9))
  | jneSkip {a : Byte} (hf : s.fl = 0x01#8) : Effect s (.jne a) (s.setPc (s.pc + 2#9))

theorem callHandler_ok {s : State} (imm : Byte) (hsp : 1 ≤ s.sp.toNat) (hpc : s.pc.toNat + 1 < 8) :
    callHandler imm s = .ok (((s.setMem (s.mem.write (s.sp.toNat - 1) imm)).setReg 7 (s.sp - 1#8)).setPc
      (((s.regs.set 7 (s.sp - 1#8))[s.pc.toNat + 1]).setWidth 9)) := by
  rw [callHandler, pushByte_ok imm hsp]
  exact jumpToRegister_ok _ hpc

theorem retHandler_ok {s : State} (hsp : s.sp.toNat < 255) :
    retHandler s = .ok ((s.setReg 7 (s.sp + 1#8)).setPc ((s.mem.read s.sp.toNat).setWidth 9)) := by
  rw [retHandler_eq, incrementSp_ok hsp]; rfl

theorem Effect.handlerOf_ok {s u : State} {i : Instr} (h : Effect s i u) : handlerOf i s = .ok u := by
  cases h with
  | ldi ha => exact ldiHandler_ok _ s ha
  | prn ha => exact prnHandler_ok s ha
  | hlt => exact hltHandler_eq s
  | add ha hb => exact addHandler_ok s ha hb
  | mul ha hb => exact mulHandler_ok s ha hb
  | cmp ha hb => exact cmpHandler_ok s ha hb
  | push hsp => exact pushByte_ok _ hsp
  | pop hsp hpc => exact popHandler_ok hsp hpc
  | call hsp hpc => exact callHandler_ok _ hsp hpc
  | ret hsp => exact retHandler_ok hsp
  | jmp ha => exact jumpToRegister_ok s ha
  | jeqTaken hf ha => exact (jeqHandler_eq _ s).trans ((if_pos hf).trans (jumpToRegister_ok s ha))
  | jeqSkip hf => exact (jeqHandler_eq _ s).trans (if_neg hf)
  | jneTaken hf ha => exact (jneHandler_eq _ s).trans ((if_neg hf).trans (jumpToRegister_ok s ha))
  | jneSkip hf => exact (jneHandler_eq _ s).trans (if_pos hf)

theorem effect_of_handlerOf_ok {s u : State} {i : Instr} (e : handlerOf i s = .ok u) : Effect s i u := by
  cases i with
  | ldi a imm => obtain ⟨ha, rfl⟩ := ldiHandler_cases e; exact .ldi ha
  | prn a => obtain ⟨ha, rfl⟩ := prnHandler_cases e; exact .prn ha
  | hlt => cases e; exact .hlt
  | add a b => obtain ⟨ha, hb, rfl⟩ := addHandler_cases e; rw [narrow_toNat_add]; exact .add ha hb
  | mul a b => obtain ⟨ha, hb, rfl⟩ := mulHandler_cases e; rw [narrow_toNat_mul]; exact .mul ha hb
  | cmp a b => obtain ⟨ha, hb, rfl⟩ := cmpHandler_cases e; exact .cmp ha hb
  | push imm => obtain ⟨hsp, rfl⟩ := pushByte_cases e; exact .push hsp
  | pop imm => obtain ⟨hsp, hpc, rfl⟩ := popHandler_cases e; exact .pop hsp hpc
  | call imm => obtain ⟨hsp, hpc, rfl⟩ := callHandler_cases e; exact .call hsp hpc
  | ret => obtain ⟨hsp, rfl⟩ := retHandler_cases e; exact .ret hsp
  | jmp a => obtain ⟨ha, rfl⟩ := jumpToRegister_cases e; exact .jmp ha
  | jeq a =>
    obtain ⟨hf, ha, rfl⟩ | ⟨hf, rfl⟩ := jeqHandler_cases e
    · exact .jeqTaken hf ha
    · exact .jeqSkip hf
  | jne a =>
    obtain ⟨hf, ha, rfl⟩ | ⟨hf, rfl⟩ := jneHandler_cases e
    · exact .jneTaken hf ha
    · exact .jneSkip hf

theorem handlerOf_ok_iff {s u : State} {i : Instr} : handlerOf i s = .ok u ↔ Effect s i u :=
  ⟨effect_of_handlerOf_ok, Effect.handlerOf_ok⟩

/-- Everything an instruction can answer: its effect with the PC updated, or the fault its handler raises. -/
theorem exec_cases {i : Instr} {s t : State} (e : exec i s = .next t) :
    (∃ u, Effect s i u ∧ t = pcUpdate i.opcode u) ∨
      ∃ f, handlerOf i s = .error f ∧ t = takeFault f (some i.opcode) s := by
  rw [exec_eq_runInstr] at e
  obtain ⟨u, hu, rfl⟩ | fault := runInstr_cases e
  · exact .inl ⟨u, handlerOf_ok_iff.1 hu, rfl⟩
  · exact .inr fault

theorem exec_fault {i : Instr} {s : State} {f : Fault} (e : handlerOf i s = .error f) :
    exec i s = .next (takeFault f (some i.opcode) s) := by
  rw [exec_eq_runInstr, runInstr_error e]

/-! ### What a completed instruction changes, field by field -/

/-- The registers that an instruction may write (R23). -/
def writesReg : Instr → Fin 8 → Prop
  | .ldi a _, r | .add a _, r | .mul a _, r => r.val = a.toNat
  | .push _, r | .pop _, r | .call _, r | .ret, r => r = 7
  | .prn _, _ | .hlt, _ | .cmp _ _, _ | .jmp _, _ | .jeq _, _ | .jne _, _ => False

/-- The cell that an instruction stores to, with the byte it stores (R55). -/
def stores (s : State) : Instr → Nat → Byte → Prop
  | .push imm, n, v | .call imm, n, v => n + 1 = s.sp.toNat ∧ v = imm
  | .pop _, n, v => n = s.pc.toNat + 1 ∧ v = s.mem.read s.sp.toNat
  | .ldi _ _, _, _ | .prn _, _, _ | .hlt, _, _ | .add _ _, _, _ | .mul _ _, _, _ | .cmp _ _, _, _ | .ret, _, _
  | .jmp _, _, _ | .jeq _, _, _ | .jne _, _, _ => False

namespace Effect

variable {s u : State} {i : Instr}

theorem getReg_eq (h : Effect s i u) {r : Fin 8} (hr : ¬writesReg i r) : u.getReg r = s.getReg r := by
  cases h with
  | ldi ha | add ha hb | mul ha hb => exact s.getReg_setReg_ne _ fun e => hr (congrArg Fin.val e)
  | push hsp | pop hsp hpc | call hsp hpc | ret hsp => exact State.getReg_setReg_ne _ _ hr
  | prn ha | hlt | cmp ha hb | jmp ha | jeqTaken hf ha | jeqSkip hf | jneTaken hf ha | jneSkip hf => rfl

theorem mem_cases (h : Effect s i u) : u.mem = s.mem ∨ ∃ n v, stores s i n v ∧ n < 256 ∧ u.mem = s.mem.write n v := by
  have sp := s.sp_toNat_lt
  cases h with
  | push hsp | call hsp hpc => exact .inr ⟨_, _, ⟨Nat.sub_add_cancel hsp, rfl⟩, by omega, rfl⟩
  | pop hsp hpc => exact .inr ⟨_, _, ⟨rfl, rfl⟩, by omega, rfl⟩
  | ldi ha | add ha hb | mul ha hb | ret hsp | prn ha | hlt | cmp ha hb | jmp ha | jeqTaken hf ha | jeqSkip hf
  | jneTaken hf ha | jneSkip hf => exact .inl rfl

theorem mem_wf (h : Effect s i u) (hs : s.mem.wf) : u.mem.wf := by
  obtain e | ⟨n, v, -, hn, e⟩ := h.mem_cases
  · rwa [e]
  · rw [e]; exact Memory.write_wf v hn hs

theorem read_eq (h : Effect s i u) {a : Nat} (ha : ∀ v, ¬stores s i a v) : u.mem.read a = s.mem.read a := by
  obtain e | ⟨n, v, hn, -, e⟩ := h.mem_cases
  · rw [e]
  · have other : a ≠ n := by rintro rfl; exact ha v hn
    rw [e, Memory.read_write_ne _ _ other]

theorem read_stored (h : Effect s i u) (hs : s.mem.wf) {a : Nat} {v : Byte} (ha : stores s i a v) :
    u.mem.read a = v := by
  cases h with
  | push hsp | call hsp hpc =>
    obtain ⟨below, rfl⟩ := ha
    obtain rfl : a = s.sp.toNat - 1 := by omega
    exact Memory.read_write_same _ _ hs.1
  | pop hsp hpc =>
    obtain ⟨rfl, rfl⟩ := ha
    exact Memory.read_write_same _ _ hs.1
  | ldi ha' | add ha' hb | mul ha' hb | ret hsp | prn ha' | hlt | cmp ha' hb | jmp ha' | jeqTaken hf ha' | jeqSkip hf
  | jneTaken hf ha' | jneSkip hf => exact ha.elim

theorem out_eq (h : Effect s i u) (hi : ∀ a, i ≠ .prn a) : u.out = s.out := by
  cases h with
  | prn ha => exact absurd rfl (hi _)
  | ldi ha | add ha hb | mul ha hb | push hsp | pop hsp hpc | call hsp hpc | ret hsp | hlt | cmp ha hb | jmp ha
  | jeqTaken hf ha | jeqSkip hf | jneTaken hf ha | jneSkip hf => rfl

theorem run_eq (h : Effect s i u) : u.run = if i = .hlt then .halted else s.run := by
  cases h <;> rfl

theorem run_eq_of_ne_hlt (h : Effect s i u) (hi : i ≠ .hlt) : u.run = s.run :=
  h.run_eq.trans (if_neg hi)

end Effect

end Sys2Proof.Machine

/-!
PROOFS. Everything one step can answer: the case analysis that every statement about steps starts from
(spec/40_fetch_decode_dispatch.md R110 to R118; spec/60_exceptions.md R196).
-/

namespace Sys2Proof.Machine

open Sys2Proof.Safety

/-! ### The instruction at the PC -/

/-- The instruction that stands at the PC where the opcode byte there is row `m` of the table. -/
def instrAt (m : Mnemonic) (s : State) : Instr :=
  match m with
  | .LDI => .ldi (operandA s) (operandB s)
  | .PRN => .prn (operandA s)
  | .HLT => .hlt
  | .ADD => .add (operandA s) (operandB s)
  | .MUL => .mul (operandA s) (operandB s)
  | .CMP => .cmp (operandA s) (operandB s)
  | .PUSH => .push (operandA s)
  | .POP => .pop (operandA s)
  | .CALL => .call (operandA s)
  | .RET => .ret
  | .JMP => .jmp (operandA s)
  | .JEQ => .jeq (operandA s)
  | .JNE => .jne (operandA s)

theorem decode_at {m : Mnemonic} {s : State} (hm : opcodeIs s m) :
    decode (ir s) (operandA s) (operandB s) = .ok (instrAt m s) := by
  rw [show ir s = opcodeMap m from hm, decode_opcodeMap]
  cases m <;> rfl

theorem instrAt_opcode (m : Mnemonic) (s : State) : (instrAt m s).opcode = opcodeMap m := by
  cases m <;> rfl

theorem opcodeIs_iff {m : Mnemonic} {s : State} (hm : opcodeIs s m) (n : Mnemonic) : opcodeIs s n ↔ m = n :=
  ⟨fun hn => opcodeMap_injective (hm.symm.trans hn), fun e => e ▸ hm⟩

/-! ### One step -/

/-- What a fault record says of the opcode: the byte at the PC, where there is one (R196). -/
def fetchedOpcode (s : State) : Option Byte := if s.pc.toNat < 256 then some (ir s) else none

/-- The fault that a running core takes where it executes no instruction: the fetch unit's (R111, R112) or that of an
illegal opcode (R90). -/
def noInstructionFault (s : State) : Fault :=
  if 256 ≤ s.pc.toNat then .outOfBoundsAccess .address s.pc.toNat
  else if 254 ≤ s.pc.toNat then .outOfBoundsAccess .address 256
  else if isAlu (ir s) then .unsupportedOperation (ir s) else .unknownInstruction (ir s)

theorem exec_next (i : Instr) (s : State) : ∃ t, exec i s = .next t := by
  rw [exec_eq_runInstr]
  cases e : handlerOf i s with
  | ok u => exact ⟨_, runInstr_ok e⟩
  | error f => exact ⟨_, runInstr_error e⟩

theorem step_stopped {s : State} (h : s.run ≠ .running) : step s = .next s := runLoopStep_stopped h

theorem step_next (s : State) : ∃ t, step s = .next t := by
  by_cases hr : s.run = .running
  · obtain ⟨-, e⟩ | ⟨-, -, e⟩ | ⟨-, -, e⟩ | ⟨-, i, -, -, e⟩ := step_running_cases hr
    · exact ⟨_, e⟩
    · exact ⟨_, e⟩
    · exact ⟨_, e⟩
    · rw [e]; exact exec_next i s
  · exact ⟨s, step_stopped hr⟩

/-- A running core where an instruction can be fetched executes the one that stands there. -/
theorem step_at {m : Mnemonic} {s : State} (hr : s.run = .running) (hpc : s.pc.toNat ≤ 253) (hm : opcodeIs s m) :
    step s = exec (instrAt m s) s := by
  obtain ⟨h, -⟩ | ⟨h, -, -⟩ | ⟨-, illegal, -⟩ | ⟨-, i, decoded, -, e⟩ := step_running_cases hr
  · omega
  · omega
  · exact absurd hm (illegal m)
  · rw [decode_at hm] at decoded
    cases decoded
    exact e

/-- A step of a running core that executes no instruction takes a fault. -/
theorem step_of_no_instruction {s : State} (hr : s.run = .running) (h : 254 ≤ s.pc.toNat ∨ ∀ m, ¬opcodeIs s m) :
    step s = .next (takeFault (noInstructionFault s) (fetchedOpcode s) s) := by
  obtain ⟨hpc, e⟩ | ⟨hlo, hhi, e⟩ | ⟨hpc, -, e⟩ | ⟨hpc, i, -, hm, -⟩ := step_running_cases hr
  · rw [e, noInstructionFault, if_pos hpc, fetchedOpcode, if_neg (by omega)]
  · rw [e, noInstructionFault, if_neg (by omega), if_pos hlo, fetchedOpcode, if_pos (by omega)]
  · rw [e, noInstructionFault, if_neg (show ¬256 ≤ s.pc.toNat by omega), if_neg (show ¬254 ≤ s.pc.toNat by omega),
      fetchedOpcode, if_pos (show s.pc.toNat < 256 by omega)]
  · exact h.elim (fun high => by omega) fun illegal => absurd hm (illegal _)

/-- Everything a step of a running core can answer: a fault taken from the state before it, or the completed
instruction at the PC. -/
theorem step_cases {s t : State} (hr : s.run = .running) (e : step s = .next t) :
    (∃ f, t = takeFault f (fetchedOpcode s) s) ∨
      (s.pc.toNat ≤ 253 ∧ ∃ m u, opcodeIs s m ∧ Effect s (instrAt m s) u ∧ t = pcUpdate (opcodeMap m) u) := by
  by_cases h : 254 ≤ s.pc.toNat ∨ ∀ m, ¬opcodeIs s m
  · rw [step_of_no_instruction hr h] at e
    cases e
    exact .inl ⟨_, rfl⟩
  · push Not at h
    obtain ⟨low, m, hm⟩ := h
    rw [step_at hr (by omega) hm] at e
    obtain ⟨u, hu, rfl⟩ | ⟨f, -, rfl⟩ := exec_cases e
    · rw [instrAt_opcode]
      exact .inr ⟨by omega, m, u, hm, hu, rfl⟩
    · refine .inl ⟨f, ?_⟩
      rw [fetchedOpcode, if_pos (by omega), instrAt_opcode, ← show ir s = opcodeMap m from hm]

/-- Settles O30: `runInstr` turns a handler's fault into a next state, and the fetch unit's faults are next states. -/
theorem everyStepAnswersANextState : Obligations.EveryStepAnswersANextState := step_next

end Sys2Proof.Machine

/-!
PROOFS. The invariants that every step keeps (spec/10_state.md R26, R27; spec/20_memory.md R53; spec/60_exceptions.md
R196, R198).
-/

namespace Sys2Proof.Machine

open Sys2Proof.Safety

/-! ### The flags and the PC that an instruction leaves -/

theorem compareFlags_legal (x y : Byte) :
    compareFlags x y = 0x01#8 ∨ compareFlags x y = 0x02#8 ∨ compareFlags x y = 0x04#8 := by
  obtain ⟨-, e⟩ | ⟨-, e⟩ | ⟨-, e⟩ := compareFlags_cases x y <;> simp [e]

theorem Effect.flagsLegal {s u : State} {i : Instr} (h : Effect s i u) (hs : FlagsLegal s) : FlagsLegal u := by
  cases h with
  | cmp ha hb => exact .inr (compareFlags_legal _ _)
  | ldi ha | add ha hb | mul ha hb | push hsp | pop hsp hpc | call hsp hpc | ret hsp | hlt | prn ha | jmp ha
  | jeqTaken hf ha | jeqSkip hf | jneTaken hf ha | jneSkip hf => exact hs

theorem toNat_setWidth_nine (v : Byte) : (v.setWidth 9).toNat = v.toNat :=
  BitVec.toNat_setWidth_of_le (by decide)

/-- Where an instruction can be fetched, the nine bits of the PC do not wrap. -/
theorem toNat_advance {pc : PcWord} {n : Nat} (hpc : pc.toNat ≤ 253) (hn : n ≤ 3) :
    (pc + BitVec.ofNat 9 n).toNat = pc.toNat + n := by
  rw [BitVec.toNat_add, BitVec.toNat_ofNat]
  omega

theorem pcUpdate_pc_cases (ir : Byte) (s : State) :
    (pcUpdate ir s).pc = s.pc ∨ setsPc ir = false ∧ (pcUpdate ir s).pc = s.pc + BitVec.ofNat 9 (nops ir + 1) := by
  unfold pcUpdate
  split
  · exact .inl rfl
  · split
    · exact .inl rfl
    · next hc => exact .inr ⟨by simpa using hc, rfl⟩

/-- An instruction that does not set the PC leaves it to the PC update. -/
theorem Effect.pc_eq {s u : State} {i : Instr} (h : Effect s i u) (hc : setsPc i.opcode = false) : u.pc = s.pc := by
  have hc : ¬setsPc (opcodeMap i.mnemonic) = true := by simpa [Instr.opcode] using hc
  rw [setsPc_opcodeMap] at hc
  cases h with
  | call hsp hpc | ret hsp | jmp ha | jeqTaken hf ha | jeqSkip hf | jneTaken hf ha | jneSkip hf =>
    simp [Instr.mnemonic] at hc
  | ldi ha | add ha hb | mul ha hb | cmp ha hb | push hsp | pop hsp hpc | hlt | prn ha => rfl

/-- A jump target is a byte, and a branch not taken stays below 256. -/
theorem Effect.pc_lt {s u : State} {i : Instr} (h : Effect s i u) (hpc : s.pc.toNat ≤ 253) : u.pc.toNat < 256 := by
  have target (v : Byte) : (v.setWidth 9).toNat < 256 := (toNat_setWidth_nine v).trans_lt v.isLt
  have skip : (s.pc + 2#9).toNat < 256 := by rw [toNat_advance hpc (by omega)]; omega
  cases h with
  | call hsp hpc | ret hsp | jmp ha | jeqTaken hf ha | jneTaken hf ha => exact target _
  | jeqSkip hf | jneSkip hf => exact skip
  | ldi ha | add ha hb | mul ha hb | cmp ha hb | push hsp | pop hsp hpc | hlt | prn ha => exact hpc.trans_lt (by omega)

theorem Effect.pcUpdate_pc_le {s u : State} {i : Instr} (h : Effect s i u) (hpc : s.pc.toNat ≤ 253) :
    (pcUpdate i.opcode u).pc.toNat ≤ 256 := by
  obtain e | ⟨hc, e⟩ := pcUpdate_pc_cases i.opcode u
  · rw [e]; exact (h.pc_lt hpc).le
  · have two := nops_opcode i ▸ operands_length_le i
    rw [e, h.pc_eq hc, toNat_advance hpc (by omega)]
    omega

/-! ### The invariants -/

theorem Effect.keeps_inv {s u : State} {i : Instr} (h : Effect s i u) (hpc : s.pc.toNat ≤ 253) (hs : Inv s) :
    Inv (pcUpdate i.opcode u) where
  memory := by rw [pcUpdate_mem]; exact h.mem_wf hs.memory
  pc := h.pcUpdate_pc_le hpc
  flags := by unfold FlagsLegal; rw [pcUpdate_fl]; exact h.flagsLegal hs.flags

theorem takeFault_keeps_inv {s : State} (f : Fault) (op : Option Byte) (hs : Inv s) : Inv (takeFault f op s) :=
  ⟨hs.memory, hs.pc, hs.flags⟩

/-- Settles O27: a fault changes `RUN` alone, and what an instruction leaves keeps each part of the invariant. -/
theorem stepKeepsInvariant : Obligations.StepKeepsInvariant := by
  intro s t hs e
  by_cases hr : s.run = .running
  · obtain ⟨f, rfl⟩ | ⟨hpc, m, u, -, hu, rfl⟩ := step_cases hr e
    · exact takeFault_keeps_inv f _ hs
    · rw [← instrAt_opcode m s]
      exact hu.keeps_inv hpc hs
  · rw [step_stopped hr] at e
    cases e
    exact hs

theorem takeFault_recordMatches (f : Fault) (s : State) : RecordMatches (takeFault f (fetchedOpcode s) s) := by
  intro r hrun
  cases hrun
  exact ⟨rfl, fun top => if_neg (by rw [takeFault_pc] at top; omega), fun low => if_pos low⟩

theorem not_faulted_of_effect {s u : State} {i : Instr} (h : Effect s i u) (hr : s.run = .running)
    (r : FaultRecord) : u.run ≠ .faulted r := by
  rw [h.run_eq, hr]
  split <;> simp

/-- Settles O28: the record is made by `takeFault` alone, which is given the PC and the opcode byte there; a completed
instruction leaves no record, and a stopped core is unchanged. -/
theorem faultRecordAgreesWithState : Obligations.FaultRecordAgreesWithState := by
  intro s t hs e
  by_cases hr : s.run = .running
  · obtain ⟨f, rfl⟩ | ⟨-, m, u, -, hu, rfl⟩ := step_cases hr e
    · exact takeFault_recordMatches f s
    · intro r hrun
      rw [pcUpdate_run] at hrun
      exact absurd hrun (not_faulted_of_effect hu hr r)
  · rw [step_stopped hr] at e
    cases e
    exact hs

end Sys2Proof.Machine

/-!
PROOFS. Runs that differ only in FL, in neither of them 0x01, stay apart in nothing else (spec/44_control_transfer.md
R176).
-/

namespace Sys2Proof.Machine

open Sys2Proof.Safety

/-- `u` is `t`, or `t` with its `FL`, which is `v`, replaced by `w`. -/
def FlTwins (v w : Byte) (t u : State) : Prop := u = t ∨ t.fl = v ∧ u = t.setFl w

/-! ### The branches where FL is not 0x01 -/

/-- The handler of an instruction where `FL` is not `0x01`; `handlerOf_eq_unequalHandler` ties it to the model. -/
def unequalHandler : Instr → State → Except Fault State
  | .jeq _ => fun s => .ok (skipBranch s)
  | .jne a => jumpToRegister a.toNat
  | i => handlerOf i

theorem handlerOf_eq_unequalHandler (i : Instr) {s : State} (hf : s.fl ≠ 0x01#8) :
    handlerOf i s = unequalHandler i s := by
  cases i with
  | jeq a => exact (jeqHandler_eq a s).trans (if_neg hf)
  | jne a => exact (jneHandler_eq a s).trans (if_neg hf)
  | _ => rfl

theorem unequalHandler_flTransparent {i : Instr} (hc : ∀ a b, i ≠ .cmp a b) : FlTransparent (unequalHandler i) := by
  cases i with
  | jeq a => exact fun _ _ => rfl
  | jne a => exact jumpToRegister_flTransparent a.toNat
  | cmp a b => exact absurd rfl (hc a b)
  | _ => exact handlerOf_flTransparent hc (by simp)

theorem exec_eq_unequalHandler (i : Instr) {s : State} (hf : s.fl ≠ 0x01#8) :
    exec i s = runInstr i.opcode (unequalHandler i) s := by
  rw [exec_eq_runInstr, runInstr, handlerOf_eq_unequalHandler i hf, runInstr]

/-! ### One step and a run of two states that differ in FL -/

section Twins

variable {w : Byte} (hw : w ≠ 0x01#8)

include hw in
theorem exec_twins {i : Instr} {s t : State} (hf : s.fl ≠ 0x01#8) (e : exec i s = .next t) :
    ∃ u, exec i (s.setFl w) = .next u ∧ FlTwins s.fl w t u := by
  by_cases hc : ∀ a b, i ≠ .cmp a b
  · refine ⟨t.setFl w, ?_, .inr ⟨exec_fl hc e, rfl⟩⟩
    rw [exec_eq_unequalHandler i hf] at e
    rw [exec_eq_unequalHandler i hw]
    exact runInstr_setFl (unequalHandler_flTransparent hc) w e
  · simp only [not_forall, not_not] at hc
    obtain ⟨a, b, rfl⟩ := hc
    have same : handlerOf (.cmp a b) (s.setFl w) = handlerOf (.cmp a b) s := cmpHandler_setFl a b w s
    obtain ⟨t, ht, rfl⟩ | ⟨f, hf', rfl⟩ := exec_cases e
    · exact ⟨_, (exec_eq_runInstr _ _).trans (runInstr_ok (same.trans ht.handlerOf_ok)), .inl rfl⟩
    · exact ⟨_, exec_fault (same.trans hf'), .inr ⟨rfl, rfl⟩⟩

include hw in
theorem step_twins {s t : State} (hf : s.fl ≠ 0x01#8) (e : step s = .next t) :
    ∃ u, step (s.setFl w) = .next u ∧ FlTwins s.fl w t u := by
  by_cases hr : s.run = .running
  · by_cases h : 254 ≤ s.pc.toNat ∨ ∀ m, ¬opcodeIs s m
    · rw [step_of_no_instruction hr h] at e
      cases e
      exact ⟨_, step_of_no_instruction (s := s.setFl w) hr h, .inr ⟨rfl, rfl⟩⟩
    · push Not at h
      obtain ⟨low, m, hm⟩ := h
      have hpc : s.pc.toNat ≤ 253 := by omega
      rw [step_at hr hpc hm] at e
      rw [step_at (s := s.setFl w) hr hpc hm]
      exact exec_twins hw hf e
  · rw [step_stopped hr] at e
    cases e
    exact ⟨_, step_stopped hr, .inr ⟨rfl, rfl⟩⟩

include hw in
/-- A run from `s` with another `FL` stays the twin of the run from `s`, whatever is executed. -/
theorem run_twins (k : Nat) {s t u : State} (hf : s.fl ≠ 0x01#8) (e : core.run k s = .next t)
    (e' : core.run k (s.setFl w) = .next u) : FlTwins s.fl w t u := by
  induction k generalizing s with
  | zero => cases e; cases e'; exact .inr ⟨rfl, rfl⟩
  | succ k ih =>
    obtain ⟨s', hs⟩ := step_next s
    obtain ⟨v', hv, twins⟩ := step_twins hw hf hs
    rw [core_run_succ k hs] at e
    rw [core_run_succ k hv] at e'
    obtain rfl | ⟨hfl, rfl⟩ := twins
    · rw [e] at e'; cases e'; exact .inl rfl
    · exact hfl ▸ ih (hfl ▸ hf) e e'

end Twins

/-- Settles O35: neither 0x02 nor 0x04 is 0x01, so the second run is a twin of the first. -/
theorem lessAndGreaterAreIndistinguishable : Obligations.LessAndGreaterAreIndistinguishable := by
  intro k s t u e e'
  obtain rfl | ⟨ht, rfl⟩ := run_twins (s := s.setFl 0x02#8) (w := 0x04#8) (by decide) k (by simp) e e'
  · exact ⟨rfl, .inl rfl⟩
  · exact ⟨rfl, .inr ⟨ht, rfl⟩⟩

end Sys2Proof.Machine

/-!
PROOFS. The frames of the thirteen instructions, faults included (spec/41_load_output_halt.md to
spec/44_control_transfer.md; spec/60_exceptions.md R196).
-/

namespace Sys2Proof.Machine

open Sys2Proof.Safety

/-- What `i` leaves as it was, whether it completes or faults. -/
structure Frame (i : Instr) (s t : State) : Prop where
  regs : ∀ r, ¬writesReg i r → t.getReg r = s.getReg r
  fl : (∀ a b, i ≠ .cmp a b) → t.fl = s.fl
  out : (∀ a, i ≠ .prn a) → t.out = s.out
  mem : ∀ a, (∀ v, ¬stores s i a v) → t.mem.read a = s.mem.read a
  run : i ≠ .hlt → t.run = s.run ∨ (∃ f, t.run = .faulted f) ∧ ∀ a, t.mem.read a = s.mem.read a

theorem pcUpdate_getReg (ir : Byte) (s : State) (r : Fin 8) : (pcUpdate ir s).getReg r = s.getReg r := by
  rw [State.getReg, pcUpdate_regs, State.getReg]

theorem exec_frame {i : Instr} {s t : State} (e : exec i s = .next t) : Frame i s t := by
  obtain ⟨u, hu, rfl⟩ | ⟨f, -, rfl⟩ := exec_cases e
  · exact {
      regs := fun r hr => (pcUpdate_getReg _ u r).trans (hu.getReg_eq hr)
      fl := fun hc => exec_fl hc e
      out := fun hp => (pcUpdate_out _ u).trans (hu.out_eq hp)
      mem := fun a ha => by rw [pcUpdate_mem, hu.read_eq ha]
      run := fun hh => .inl ((pcUpdate_run _ u).trans (hu.run_eq_of_ne_hlt hh)) }
  · exact ⟨fun _ _ => rfl, fun _ => rfl, fun _ => rfl, fun _ _ => rfl, fun _ => .inr ⟨⟨_, rfl⟩, fun _ => rfl⟩⟩

/-- Every instruction but HLT leaves `RUN` or faults. -/
theorem Frame.run_or_faulted {i : Instr} {s t : State} (h : Frame i s t) (hi : i ≠ .hlt) :
    t.run = s.run ∨ ∃ f, t.run = .faulted f :=
  (h.run hi).imp_right And.left

/-- Settles O21: of registers, LDI, ADD and MUL write their first operand's. -/
theorem registerWritersFrame : Obligations.RegisterWritersFrame := by
  intro a b i s t hi e
  have frame := exec_frame e
  obtain rfl | rfl | rfl := hi <;>
    exact ⟨frame.regs, frame.fl (by simp), frame.out (by simp), fun n => frame.mem n fun _ => id,
      frame.run_or_faulted (by simp)⟩

/-- Settles O22: PRN, CMP and HLT write no register and store nothing. -/
theorem outputCompareHaltFrame : Obligations.OutputCompareHaltFrame := by
  intro a b i s t hi e
  have frame := exec_frame e
  obtain rfl | rfl | rfl := hi
  · exact ⟨fun r => frame.regs r id, fun n => frame.mem n fun _ => id, fun _ => frame.fl (by simp), by simp,
      frame.run_or_faulted⟩
  · exact ⟨fun r => frame.regs r id, fun n => frame.mem n fun _ => id, by simp, fun _ => frame.out (by simp),
      frame.run_or_faulted⟩
  · exact ⟨fun r => frame.regs r id, fun n => frame.mem n fun _ => id, fun _ => frame.fl (by simp),
      fun _ => frame.out (by simp), frame.run_or_faulted⟩

theorem eq_pushAddress {s : State} {n : Nat} (h : n + 1 = s.sp.toNat) : (n : Int) = pushAddress s := by
  unfold pushAddress; omega

/-- Settles O23: PUSH and CALL store below the stack pointer, at `pushAddress`. -/
theorem pushCallFrame : Obligations.PushCallFrame := by
  intro imm i s t hi e
  have frame := exec_frame e
  obtain rfl | rfl := hi <;>
    exact ⟨frame.regs, frame.fl (by simp), frame.out (by simp),
      fun n away => frame.mem n fun v here => away (eq_pushAddress here.1), frame.run (by simp)⟩

/-- Settles O24: POP stores into its operand's own cell. -/
theorem popFrame : Obligations.PopFrame := by
  intro imm s t e
  have frame := exec_frame e
  exact ⟨frame.regs, frame.fl (by simp), frame.out (by simp),
    fun n away => frame.mem n fun v here => away (congrArg Nat.cast here.1), frame.run (by simp)⟩

/-- Settles O25: of the four, RET alone writes a register, the stack pointer. -/
theorem jumpFrame : Obligations.JumpFrame := by
  intro a i s t hi e
  have frame := exec_frame e
  have regs (r : Fin 8) (h : r ≠ 7 ∨ i ≠ .ret) : t.getReg r = s.getReg r := by
    refine frame.regs r fun writes => ?_
    obtain rfl | rfl | rfl | rfl := hi
    · exact h.elim (· writes) (· rfl)
    all_goals exact writes
  obtain rfl | rfl | rfl | rfl := hi <;>
    exact ⟨regs, frame.fl (by simp), frame.out (by simp), fun n => frame.mem n fun _ => id,
      frame.run_or_faulted (by simp)⟩

end Sys2Proof.Machine

/-!
PROOFS. Canonical memories are extensional (spec/20_memory.md).
-/

namespace Sys2Proof.Machine

theorem Memory.wf_cons {a : Nat} {v : Byte} {m : Memory} (h : Memory.wf ((a, v) :: m)) :
    (∀ c ∈ m, a < c.1) ∧ a < 256 ∧ v ≠ Config.memInit a ∧ m.wf := by
  obtain ⟨sorted, cells⟩ := h
  obtain ⟨above, sorted⟩ := List.pairwise_cons.1 sorted
  obtain ⟨⟨range, value⟩, cells⟩ := List.forall_mem_cons.1 cells
  exact ⟨above, range, value, sorted, cells⟩

/-- A canonical memory whose every cell lies above `a` differs at `a` from one whose first cell is `a`. -/
theorem Memory.read_head_ne {a : Nat} {v : Byte} {m n : Memory} (hm : Memory.wf ((a, v) :: m))
    (above : ∀ c ∈ n, a < c.1) : Memory.read ((a, v) :: m) a ≠ n.read a := by
  obtain ⟨-, -, value, -⟩ := Memory.wf_cons hm
  rw [Memory.read_cons, if_pos rfl, Memory.read_below above]
  exact value

theorem Memory.above_cons {a b : Nat} {v : Byte} {m : Memory} (lt : a < b) (hm : Memory.wf ((b, v) :: m)) :
    ∀ c ∈ (b, v) :: m, a < c.1 :=
  List.forall_mem_cons.2 ⟨lt, fun c hc => lt.trans ((Memory.wf_cons hm).1 c hc)⟩

theorem Memory.ext_of_wf {m n : Memory} (hm : m.wf) (hn : n.wf) (h : ∀ a < 256, m.read a = n.read a) : m = n := by
  induction m generalizing n with
  | nil =>
    match n with
    | [] => rfl
    | (b, w) :: n => exact absurd (h b (Memory.wf_cons hn).2.1).symm (Memory.read_head_ne hn (by simp))
  | cons c m ih =>
    obtain ⟨a, v⟩ := c
    obtain ⟨aboveM, ha, -, wfM⟩ := Memory.wf_cons hm
    match n with
    | [] => exact absurd (h a ha) (Memory.read_head_ne hm (by simp))
    | (b, w) :: n =>
      obtain ⟨aboveN, hb, -, wfN⟩ := Memory.wf_cons hn
      obtain lt | rfl | lt := lt_trichotomy a b
      · exact absurd (h a ha) (Memory.read_head_ne hm (Memory.above_cons lt hn))
      · have head : v = w := by simpa [Memory.read_cons] using h a ha
        have tails (x : Nat) (hx : x < 256) : Memory.read m x = Memory.read n x := by
          by_cases e : x = a
          · rw [e, Memory.read_below aboveM, Memory.read_below aboveN]
          · simpa [Memory.read_cons, e] using h x hx
        rw [head, ih wfM wfN tails]
      · exact absurd (h b hb).symm (Memory.read_head_ne hn (Memory.above_cons lt hm))

/-- Settles O29, by induction on the first memory: the lists' first cells must be the same. -/
theorem canonicalMemoriesAreExtensional : Obligations.CanonicalMemoriesAreExtensional :=
  fun _ _ => Memory.ext_of_wf

end Sys2Proof.Machine

/-!
PROOFS. Which steps fault and halt, and what a step changes, by the opcode (spec/10_state.md R23, R25, R29, R31;
spec/20_memory.md R55, R62; spec/60_exceptions.md R190 to R198).
-/

namespace Sys2Proof.Machine

open Sys2Proof.Safety

/-! ### When an instruction completes -/

/-- The condition under which an instruction completes; `exec_faults_iff` ties it to the model. -/
def Ready (s : State) : Instr → Prop
  | .ldi a _ | .prn a | .jmp a => a.toNat < 8
  | .hlt => True
  | .add a b | .mul a b | .cmp a b => a.toNat < 8 ∧ b.toNat < 8
  | .push _ => 1 ≤ s.sp.toNat
  | .pop _ => s.sp.toNat < 255 ∧ s.pc.toNat ≤ 254
  | .call _ => 1 ≤ s.sp.toNat ∧ s.pc.toNat + 1 < 8
  | .ret => s.sp.toNat < 255
  | .jeq a => s.fl = 0x01#8 → a.toNat < 8
  | .jne a => s.fl ≠ 0x01#8 → a.toNat < 8

theorem Effect.ready {s u : State} {i : Instr} (h : Effect s i u) : Ready s i := by
  cases h with
  | ldi ha | prn ha | jmp ha => exact ha
  | hlt => trivial
  | add ha hb | mul ha hb | cmp ha hb => exact ⟨ha, hb⟩
  | push hsp | ret hsp => exact hsp
  | pop hsp hpc | call hsp hpc => exact ⟨hsp, hpc⟩
  | jeqTaken hf ha | jneTaken hf ha => exact fun _ => ha
  | jeqSkip hf => exact fun hf' => absurd hf' hf
  | jneSkip hf => exact fun hf' => absurd hf hf'

theorem exists_effect_of_ready {s : State} {i : Instr} (h : Ready s i) : ∃ u, Effect s i u := by
  cases i with
  | ldi a imm => exact ⟨_, .ldi h⟩
  | prn a => exact ⟨_, .prn h⟩
  | hlt => exact ⟨_, .hlt⟩
  | add a b => exact ⟨_, .add h.1 h.2⟩
  | mul a b => exact ⟨_, .mul h.1 h.2⟩
  | cmp a b => exact ⟨_, .cmp h.1 h.2⟩
  | push imm => exact ⟨_, .push h⟩
  | pop imm => exact ⟨_, .pop h.1 h.2⟩
  | call imm => exact ⟨_, .call h.1 h.2⟩
  | ret => exact ⟨_, .ret h⟩
  | jmp a => exact ⟨_, .jmp h⟩
  | jeq a =>
    by_cases hf : s.fl = 0x01#8
    · exact ⟨_, .jeqTaken hf (h hf)⟩
    · exact ⟨_, .jeqSkip hf⟩
  | jne a =>
    by_cases hf : s.fl = 0x01#8
    · exact ⟨_, .jneSkip hf⟩
    · exact ⟨_, .jneTaken hf (h hf)⟩

/-- An instruction of a running core faults exactly where it is not ready. -/
theorem exec_faults_iff {i : Instr} {s : State} (hr : s.run = .running) :
    (∃ t f, exec i s = .next t ∧ t.run = .faulted f) ↔ ¬Ready s i := by
  constructor
  · rintro ⟨t, f, e, hf⟩ ready
    obtain ⟨u, hu⟩ := exists_effect_of_ready ready
    rw [exec_eq_runInstr, runInstr_ok hu.handlerOf_ok] at e
    cases e
    rw [pcUpdate_run] at hf
    exact not_faulted_of_effect hu hr f hf
  · intro notReady
    obtain ⟨t, e⟩ := exec_next i s
    obtain ⟨u, hu, -⟩ | ⟨f, -, rfl⟩ := exec_cases e
    · exact absurd hu.ready notReady
    · exact ⟨_, _, e, rfl⟩

/-- Settles O31: where no instruction can be fetched both sides hold; elsewhere the instruction at the PC faults
where it is not ready, which is its clause of the list. -/
theorem stepFaultsExactlyAsListed : Obligations.StepFaultsExactlyAsListed := by
  intro s hr _
  by_cases h : 254 ≤ s.pc.toNat ∨ ∀ m, ¬opcodeIs s m
  · exact iff_of_true ⟨_, _, step_of_no_instruction hr h, rfl⟩ (h.imp_right .inl)
  · push Not at h
    obtain ⟨low, m, hm⟩ := h
    have legal : ¬∀ n, ¬m = n := fun none => none m rfl
    have sp := s.sp_toNat_lt
    rw [step_at hr (by omega) hm, exec_faults_iff hr]
    simp only [opcodeIs_iff hm, legal, not_le.2 low, false_or]
    cases m with
    | LDI | PRN | JMP | PUSH | JEQ | JNE | HLT => simp [instrAt, Ready]
    | ADD | MUL | CMP => simp [instrAt, Ready, imp_iff_not_or]
    | CALL | POP | RET => simp [instrAt, Ready]; omega

/-! ### How a step faults and halts -/

/-- Settles O32: a faulting step is `takeFault` of the state before it. -/
theorem faultsArePrecise : Obligations.FaultsArePrecise := by
  intro s t f hr e hf
  obtain ⟨g, rfl⟩ | ⟨-, m, u, -, hu, rfl⟩ := step_cases hr e
  · cases hf; rfl
  · rw [pcUpdate_run] at hf
    exact absurd hf (not_faulted_of_effect hu hr f)

theorem instrAt_eq_hlt {m : Mnemonic} {s : State} (h : instrAt m s = .hlt) : m = .HLT :=
  opcodeMap_injective ((instrAt_opcode m s).symm.trans (congrArg Instr.opcode h))

/-- Settles O33: only HLT's effect has a run state other than the one before it. -/
theorem onlyHltHalts : Obligations.OnlyHltHalts := by
  intro s t hr e
  obtain ⟨g, rfl⟩ | ⟨hpc, m, u, hm, hu, rfl⟩ := step_cases hr e
  · exact ⟨by simp, by simp⟩
  · rw [pcUpdate_run, hu.run_eq, hr]
    split
    · next hlt =>
      obtain rfl := instrAt_eq_hlt hlt
      cases hu
      exact ⟨by simp, fun _ => ⟨hpc, hm, pcUpdate_halted rfl⟩⟩
    · exact ⟨by simp, by simp⟩

/-! ### What a step changes -/

/-- Settles O36: a register that the instruction at the PC may not write is as before. -/
theorem registersChangeOnlyAsTabled : Obligations.RegistersChangeOnlyAsTabled := by
  intro s t r hr e changed
  obtain ⟨g, rfl⟩ | ⟨-, m, u, hm, hu, rfl⟩ := step_cases hr e
  · exact absurd rfl changed
  · rw [pcUpdate_getReg] at changed
    have writes : writesReg (instrAt m s) r := not_not.1 (mt hu.getReg_eq changed)
    cases m with
    | LDI | ADD | MUL => exact .inl ⟨by simp [hm], writes⟩
    | PUSH | POP | CALL | RET => exact .inr ⟨by simp [hm], writes⟩
    | PRN | HLT | CMP | JMP | JEQ | JNE => exact writes.elim

/-- Settles O37: a cell that the instruction at the PC does not store to is as before, and the one it stores to holds
the byte stored. -/
theorem memoryChangesOnlyAsTabled : Obligations.MemoryChangesOnlyAsTabled := by
  intro s t addr hs hr e changed
  obtain ⟨g, rfl⟩ | ⟨-, m, u, hm, hu, rfl⟩ := step_cases hr e
  · exact absurd rfl changed
  · rw [pcUpdate_mem] at changed ⊢
    obtain ⟨v, stored⟩ : ∃ v, stores s (instrAt m s) addr v := by
      by_contra nothing
      exact changed (hu.read_eq (not_exists.1 nothing))
    rw [hu.read_stored hs stored]
    cases m with
    | PUSH | CALL => exact .inl ⟨by simp [hm], stored⟩
    | POP => exact .inr ⟨hm, stored⟩
    | LDI | PRN | HLT | ADD | MUL | CMP | RET | JMP | JEQ | JNE => exact stored.elim

/-- Settles O38: every effect but PRN's leaves `OUT`. -/
theorem outputOnlyGrowsByPrn : Obligations.OutputOnlyGrowsByPrn := by
  intro s t hr e
  obtain ⟨g, rfl⟩ | ⟨-, m, u, hm, hu, rfl⟩ := step_cases hr e
  · exact ⟨.inl rfl, by simp⟩
  · rw [pcUpdate_out]
    by_cases prn : m = .PRN
    · subst prn
      cases hu with
      | prn ha => exact ⟨.inr ⟨hm, ha, rfl⟩, fun _ _ => by simp⟩
    · refine ⟨.inl (hu.out_eq fun a => ?_), fun _ h => absurd ((opcodeIs_iff hm _).1 h) prn⟩
      cases m <;> simp [instrAt] at prn ⊢

/-- Settles O40: the cell at the PC is the one stored to, and it holds the byte pushed. -/
theorem storeIsSeenByTheNextFetch : Obligations.StoreIsSeenByTheNextFetch := by
  intro s t hs hr opcode e running below
  obtain ⟨g, rfl⟩ | ⟨-, m, u, hm, hu, rfl⟩ := step_cases hr e
  · cases running
  · have sp := s.sp_toNat_lt
    have stored : stores s (instrAt m s) (pcUpdate (opcodeMap m) u).pc.toNat (operandA s) := by
      simp only [opcodeIs_iff hm] at opcode
      obtain rfl | rfl := opcode <;> exact ⟨below, rfl⟩
    rw [fetchOpcode_ok (by omega), pcUpdate_mem, hu.read_stored hs stored]

/-- An instruction that advances and goes on leaves the PC past its operands. -/
theorem Effect.pc_advance {s u : State} {m : Mnemonic} (hu : Effect s (instrAt m s) u) (hpc : s.pc.toNat ≤ 253)
    (hr : u.run = .running) (hc : setsPc (opcodeMap m) = false) :
    (pcUpdate (opcodeMap m) u).pc.toNat = s.pc.toNat + (nops (opcodeMap m) + 1) := by
  have two := nops_opcode (instrAt m s) ▸ operands_length_le (instrAt m s)
  rw [instrAt_opcode] at two
  rw [pcUpdate_advance (by simp [hr]) hc, State.setPc_pc, hu.pc_eq (by rwa [instrAt_opcode]),
    toNat_advance hpc (by omega)]

/-- Settles O39: an instruction that sets the PC leaves what its handler wrote, every other one advances. -/
theorem pcAfterEachInstruction : Obligations.PcAfterEachInstruction := by
  intro s t hr e running
  obtain ⟨g, rfl⟩ | ⟨hpc, m, u, hm, hu, rfl⟩ := step_cases hr e
  · cases running
  · rw [pcUpdate_run] at running
    have advance := hu.pc_advance hpc running
    have kept (h : setsPc (opcodeMap m) = true) : (pcUpdate (opcodeMap m) u).pc = u.pc := by rw [pcUpdate_setsPc u h]
    have fits (v : Byte) : v.toNat < 512 := v.isLt.trans (by decide)
    have skip : (s.pc + 2#9).toNat = s.pc.toNat + 2 := toNat_advance hpc (by omega)
    simp only [opcodeIs_iff hm, pcUpdate_regs]
    cases m with
    | LDI | ADD | MUL | CMP => simpa [nops_opcodeMap] using advance rfl
    | PRN | PUSH | POP => simpa [nops_opcodeMap] using advance rfl
    | HLT => simp
    | CALL => rw [kept rfl]; cases hu with | call hsp hp => simp [hp, fits]
    | RET => rw [kept rfl]; cases hu with | ret hsp => simp [fits]
    | JMP => rw [kept rfl]; cases hu with | jmp ha => simp [ha, fits]
    | JEQ =>
      rw [kept rfl]
      cases hu with
      | jeqTaken hf ha => simp [hf, ha, fits]
      | jeqSkip hf => simp [hf, skip]
    | JNE =>
      rw [kept rfl]
      cases hu with
      | jneTaken hf ha => simp [hf, ha, fits]
      | jneSkip hf => simp [hf, skip]

end Sys2Proof.Machine

/-!
PROOFS. Which lines of the loader's text yield a byte, the loads that are refused and the start of the run
(spec/70_reset_and_hazards.md R231 to R239).
-/

namespace Sys2Proof.Machine

/-! ### Binary digits -/

/-- The number that binary digits name, most significant first; `binaryByte_eq` ties it to the model. -/
def binaryNumber (digits : List Char) : Nat :=
  digits.foldl (fun n c => 2 * n + (if c = '1' then 1 else 0)) 0

theorem binaryByte_eq (digits : List Char) : binaryByte digits = BitVec.ofNat 8 (binaryNumber digits) := rfl

theorem binaryNumber_append (digits : List Char) (c : Char) :
    binaryNumber (digits ++ [c]) = Nat.bit (c = '1') (binaryNumber digits) := by
  rw [binaryNumber, List.foldl_append, Nat.bit_val]
  by_cases h : c = '1' <;> simp [h, binaryNumber]

/-- Counted from the end, bit `k` is the digit `k` places before the last. -/
theorem testBit_binaryNumber {digits : List Char} {k : Nat} (hk : k < digits.length) :
    (binaryNumber digits).testBit (digits.length - 1 - k) = decide (digits[k] = '1') := by
  induction digits using List.reverseRecOn with
  | nil => simp at hk
  | append_singleton digits c ih =>
    rw [binaryNumber_append]
    by_cases last : k = digits.length
    · simp [last]
    · have hk : k < digits.length := by simp at hk; omega
      have place : (digits ++ [c]).length - 1 - k = (digits.length - 1 - k) + 1 := by simp; omega
      rw [place, Nat.testBit_bit_succ, ih hk, List.getElem_append_left hk]

/-! ### A line of the loader's text -/

theorem lineDigits_take (line : List Char) : lineDigits (line.take 8) = lineDigits line := by
  rw [lineDigits, List.take_take, min_self, lineDigits]

theorem readLine_congr {line line' : List Char} (h : lineDigits line = lineDigits line') :
    readLine line = readLine line' := by
  rw [readLine, readLine, h]

theorem readLine_skipped {line : List Char} (h : (lineDigits line).length ≠ 8) : readLine line = .ok none :=
  if_neg h

theorem readLine_accepted {line : List Char} (h : (lineDigits line).length = 8)
    (binary : ∀ c ∈ lineDigits line, c = '0' ∨ c = '1') :
    readLine line = .ok (some (binaryByte (lineDigits line))) := by
  have all : (lineDigits line).all (fun c => c = '0' || c = '1') = true := by simpa using binary
  simp only [readLine, if_pos h, if_pos all]

theorem readLine_refused {line : List Char} (h : (lineDigits line).length = 8)
    (other : ∃ c ∈ lineDigits line, c ≠ '0' ∧ c ≠ '1') : readLine line = .error .nonBinaryDigit := by
  have notAll : ¬(lineDigits line).all (fun c => c = '0' || c = '1') = true := by simpa using other
  simp only [readLine, if_pos h, if_neg notAll]

/-- A line is refused for one reason only. -/
theorem readLine_error {line : List Char} {r : LoadRefusal} (e : readLine line = .error r) : r = .nonBinaryDigit := by
  simp only [readLine] at e
  split at e
  · split at e
    · cases e
    · cases e; rfl
  · cases e

/-- Eight characters of 0 and 1 are the line's digits, whatever follows. -/
theorem lineDigits_of_binary {digits : List Char} (rest : List Char) (h : digits.length = 8)
    (binary : ∀ c ∈ digits, c = '0' ∨ c = '1') : lineDigits (digits ++ rest) = digits := by
  rw [lineDigits, List.take_left' h, List.filter_eq_self]
  intro c hc
  obtain rfl | rfl := binary c hc <;> decide

theorem isDigitChar_iff {c : Char} (h : c.toNat < 128) : isDigitChar c = true ↔ '0' ≤ c ∧ c ≤ '9' := by
  simp only [isDigitChar, if_pos h, Bool.and_eq_true, decide_eq_true_eq]
  rfl

/-- Eight binary digits, the first for bit 7; the line of `LoaderLineYieldsItsByte`. -/
def binaryLine (bits : Fin 8 → Bool) : List Char := List.ofFn fun k : Fin 8 => if bits k then '1' else '0'

theorem binaryLine_length (bits : Fin 8 → Bool) : (binaryLine bits).length = 8 := List.length_ofFn

theorem binaryLine_getElem (bits : Fin 8 → Bool) (k : Fin 8) (hk : k.val < (binaryLine bits).length) :
    (binaryLine bits)[k.val] = if bits k then '1' else '0' := List.getElem_ofFn hk

theorem binaryLine_binary (bits : Fin 8 → Bool) : ∀ c ∈ binaryLine bits, c = '0' ∨ c = '1' := by
  rw [binaryLine, List.forall_mem_ofFn_iff]
  intro k
  cases bits k <;> simp

theorem binaryByte_binaryLine (bits : Fin 8 → Bool) (k : Fin 8) :
    (binaryByte (binaryLine bits)).getLsbD (7 - k.val) = bits k := by
  have low : 7 - k.val < 8 := by omega
  have bit := testBit_binaryNumber (digits := binaryLine bits) (k := k.val) (by rw [binaryLine_length]; exact k.isLt)
  rw [binaryLine_getElem, binaryLine_length] at bit
  rw [binaryByte_eq, BitVec.getLsbD_ofNat, bit]
  cases bits k <;> simp [low]

theorem readLine_binaryLine (bits : Fin 8 → Bool) (rest : List Char) :
    readLine (binaryLine bits ++ rest) = .ok (some (binaryByte (binaryLine bits))) := by
  have digits := lineDigits_of_binary rest (binaryLine_length bits) (binaryLine_binary bits)
  rw [readLine_accepted (by rw [digits, binaryLine_length]) (by rw [digits]; exact binaryLine_binary bits), digits]

/-- Settles O44: a line is read through its digits alone. -/
theorem loaderLineYieldsItsByte : Obligations.LoaderLineYieldsItsByte :=
  ⟨fun line => readLine_congr (lineDigits_take line).symm, fun _ => readLine_skipped,
    fun bits rest => ⟨_, readLine_binaryLine bits rest, binaryByte_binaryLine bits⟩, fun _ => isDigitChar_iff⟩

/-! ### Loads that are refused -/

theorem readLines_refused {before after : List (List Char)} {line : List Char}
    (h : readLine line = .error .nonBinaryDigit) :
    readLines (before ++ line :: after) = .error .nonBinaryDigit := by
  induction before with
  | nil => rw [List.nil_append, readLines, h]; rfl
  | cons first before ih =>
    rw [List.cons_append, readLines]
    cases e : readLine first with
    | error r => rw [readLine_error e]; rfl
    | ok byte => rw [ih]; rfl

theorem loadBytes_tooLong {bytes : List Byte} {s : State} (idle : s.run = .idle) (long : 256 < bytes.length) :
    loadBytes bytes s = .error .tooLong := by
  rw [loadBytes, if_neg (not_not.2 idle), if_pos long]

/-- Settles O46: reading stops at the first refused line, and lines are refused for one reason only. -/
theorem loaderRefusals : Obligations.LoaderRefusals := by
  refine ⟨fun before after line s length other => ?_, fun lines bytes s idle read long => ?_⟩
  · rw [loadLines, readLines_refused (readLine_refused length other)]; rfl
  · rw [loadLines, read]; exact loadBytes_tooLong idle long

/-! ### The start of the run -/

theorem State.start_idle {s : State} (h : s.run = .idle) : s.start = s.setRun .running := by
  simp only [State.start, h]

theorem State.start_of_ne_idle {s : State} (h : s.run ≠ .idle) : s.start = s := by
  unfold State.start
  split
  · next e => exact absurd e h
  · rfl
  · rfl
  · rfl

/-- Settles O43: a load leaves the core idle with the PC at 0. -/
theorem startOnlyLeavesIdle : Obligations.StartOnlyLeavesIdle := by
  refine ⟨fun s => State.start_idle, fun s => State.start_of_ne_idle, fun lines s load => ?_⟩
  obtain ⟨bytes, -, store⟩ := loadLines_ok load
  obtain ⟨-, -, loaded⟩ := loadBytes_ok store
  have started : s.start = s.setRun .running := State.start_idle (by rw [loaded]; rfl)
  have pc : (s.setRun .running).pc.toNat = 0 := by rw [loaded]; rfl
  refine ⟨?_, ?_⟩
  · rw [loadAndRun, load]; exact congrArg Except.ok started
  · rw [started, fetchOpcode_ok (by omega), pc]; rfl

end Sys2Proof.Machine

/-!
PROOFS. Reset, the decoder's thirteen rows, the fetch unit and the step (spec/10_state.md R29, R36; spec/30_encoding.md
R83 to R90; spec/40_fetch_decode_dispatch.md R110 to R115).
-/

namespace Sys2Proof.Machine

open Sys2Proof.Safety

/-! ### Reset -/

/-- Settles O1: every clause is about the one concrete state. -/
theorem resetLeavesInitialValues : Obligations.ResetLeavesInitialValues :=
  ⟨rfl, rfl, by decide, rfl, fun _ _ => rfl, rfl, rfl, rfl⟩

/-- Settles O2: memory is empty, and there is no record. -/
theorem resetMeetsInvariants : Obligations.ResetMeetsInvariants :=
  ⟨⟨State.reset_wf, Nat.zero_le _, .inl rfl⟩, fun r hr => nomatch (hr : RunState.idle = .faulted r)⟩

/-! ### Decoding and the step -/

/-- Settles O3: the rows of `decode_opcodeMap`. -/
theorem writtenOutWordsDecode : Obligations.WrittenOutWordsDecode := fun a b =>
  ⟨decode_opcodeMap .LDI a b, decode_opcodeMap .PRN a b, decode_opcodeMap .HLT a b, decode_opcodeMap .ADD a b,
    decode_opcodeMap .MUL a b, decode_opcodeMap .CMP a b, decode_opcodeMap .PUSH a b, decode_opcodeMap .POP a b,
    decode_opcodeMap .CALL a b, decode_opcodeMap .RET a b, decode_opcodeMap .JMP a b, decode_opcodeMap .JEQ a b,
    decode_opcodeMap .JNE a b⟩

theorem step_of_decode {s : State} {i : Instr} (hr : s.run = .running) (hpc : s.pc.toNat ≤ 253)
    (e : decode (ir s) (operandA s) (operandB s) = .ok i) : step s = exec i s := by
  have hm : opcodeIs s i.mnemonic := (decode_cases e).1
  rw [decode_at hm] at e
  rw [step_at hr hpc hm, Except.ok.inj e]

/-- Memory holds the bytes of `i` from the PC on. -/
def HoldsAtPc (s : State) (i : Instr) : Prop :=
  ∀ (k : Nat) (h : k < (encode i).length), s.mem.read (s.pc.toNat + k) = (encode i)[k]

theorem HoldsAtPc.opcodeIs {s : State} {i : Instr} (h : HoldsAtPc s i) : opcodeIs s i.mnemonic :=
  h 0 (Nat.succ_pos _)

theorem HoldsAtPc.instrAt_eq {s : State} {i : Instr} (h : HoldsAtPc s i) : instrAt i.mnemonic s = i := by
  have first (h1 : 0 < i.operands.length) : operandA s = i.operands[0] := h 1 (Nat.succ_lt_succ h1)
  have second (h2 : 1 < i.operands.length) : operandB s = i.operands[1] := h 2 (Nat.succ_lt_succ h2)
  cases i with
  | ldi a imm => exact congrArg₂ Instr.ldi (first Nat.zero_lt_two) (second Nat.one_lt_two)
  | add a b => exact congrArg₂ Instr.add (first Nat.zero_lt_two) (second Nat.one_lt_two)
  | mul a b => exact congrArg₂ Instr.mul (first Nat.zero_lt_two) (second Nat.one_lt_two)
  | cmp a b => exact congrArg₂ Instr.cmp (first Nat.zero_lt_two) (second Nat.one_lt_two)
  | prn a => exact congrArg Instr.prn (first Nat.zero_lt_one)
  | push imm => exact congrArg Instr.push (first Nat.zero_lt_one)
  | pop imm => exact congrArg Instr.pop (first Nat.zero_lt_one)
  | call imm => exact congrArg Instr.call (first Nat.zero_lt_one)
  | jmp a => exact congrArg Instr.jmp (first Nat.zero_lt_one)
  | jeq a => exact congrArg Instr.jeq (first Nat.zero_lt_one)
  | jne a => exact congrArg Instr.jne (first Nat.zero_lt_one)
  | hlt | ret => rfl

/-- Settles O4: bytes that hold an instruction's encoding make it the one at the PC. -/
theorem stepRunsTheDecodedInstruction : Obligations.StepRunsTheDecodedInstruction := by
  intro s i hr hpc
  refine ⟨step_of_decode hr hpc, fun (held : HoldsAtPc s i) => ?_⟩
  rw [step_at hr hpc held.opcodeIs, held.instrAt_eq]

/-- Settles O5, by induction on the number of steps. -/
theorem stoppedCoreDoesNothing : Obligations.StoppedCoreDoesNothing := by
  intro s stopped k
  induction k with
  | zero => rfl
  | succ k ih => rw [core_run_succ k (step_stopped stopped), ih]

/-- Settles O6: at 254 and above no instruction can be fetched. -/
theorem fetchPastTheTopFaults : Obligations.FetchPastTheTopFaults := by
  intro s hr
  refine ⟨fun top => ?_, fun low high => ?_⟩
  · rw [step_of_no_instruction hr (.inl (by omega)), noInstructionFault, if_pos top.ge, fetchedOpcode,
      if_neg (by omega), top]
    rfl
  · rw [step_of_no_instruction hr (.inl low), noInstructionFault, if_neg (by omega), if_pos low, fetchedOpcode,
      if_pos (by omega)]
    rfl

theorem step_of_illegal_opcode {s : State} (hr : s.run = .running) (hpc : s.pc.toNat ≤ 253)
    (illegal : ∀ m, ¬opcodeIs s m) :
    step s = .next (takeFault
      (if isAlu (ir s) then .unsupportedOperation (ir s) else .unknownInstruction (ir s)) (some (ir s)) s) := by
  have high : ¬256 ≤ s.pc.toNat := by omega
  have low : ¬254 ≤ s.pc.toNat := by omega
  have inMemory : s.pc.toNat < 256 := by omega
  rw [step_of_no_instruction hr (.inr illegal), noInstructionFault, if_neg high, if_neg low, fetchedOpcode,
    if_pos inMemory]

/-- Settles O7: bit 5 is the one that routes to the ALU. -/
theorem illegalOpcodeFaults : Obligations.IllegalOpcodeFaults := by
  intro s hr hpc illegal
  rw [step_of_illegal_opcode hr hpc illegal]
  refine ⟨fun clear => ?_, fun set => ?_⟩
  · rw [isAlu, clear]; rfl
  · rw [isAlu, set]; rfl

end Sys2Proof.Machine

/-!
PROOFS. What each instruction answers, faults included (spec/41_load_output_halt.md to spec/44_control_transfer.md).
-/

namespace Sys2Proof.Machine

open Sys2Proof.Safety

/-! ### Handlers that fault -/

section Faults

variable {a b : Byte} (s : State)

theorem ldiHandler_error (imm : Byte) (ha : 8 ≤ a.toNat) :
    ldiHandler a imm s = .error (.outOfBoundsAccess .register a.toNat) := by
  rw [ldiHandler, checkReg_error ha]; rfl

theorem prnHandler_error (ha : 8 ≤ a.toNat) : prnHandler a s = .error (.outOfBoundsAccess .register a.toNat) := by
  rw [prnHandler, readReg_error s ha]; rfl

variable {f : Fault} (e : aluOperands a b = .error f)
include e

theorem addHandler_error : addHandler a b s = .error f := by rw [addHandler, e]; rfl

theorem mulHandler_error : mulHandler a b s = .error f := by rw [mulHandler, e]; rfl

theorem cmpHandler_error : cmpHandler a b s = .error f := by rw [cmpHandler, e]; rfl

end Faults

theorem pushByte_error_of_toNat {s : State} (imm : Byte) (hsp : s.sp.toNat = 0) :
    pushByte imm s = .error (.outOfBoundsAccess .address (-1)) :=
  pushByte_error imm (BitVec.eq_of_toNat_eq hsp)

theorem popHandler_error {s : State} (hsp : s.sp.toNat = 255) (hpc : s.pc.toNat ≤ 254) :
    popHandler s = .error (.outOfBoundsAccess .address 256) := by
  have cell : operandCell s = ((s.pc.toNat + 1 : Nat) : Int) := rfl
  rw [popHandler_eq, cell, State.memWrite_ok s _ (by omega)]
  exact incrementSp_error hsp

theorem callHandler_error_push {s : State} (imm : Byte) (hsp : s.sp.toNat = 0) :
    callHandler imm s = .error (.outOfBoundsAccess .address (-1)) := by
  rw [callHandler, pushByte_error_of_toNat imm hsp]; rfl

theorem callHandler_error_register {s : State} (imm : Byte) (hsp : 1 ≤ s.sp.toNat) (hpc : 7 ≤ s.pc.toNat) :
    callHandler imm s = .error (.outOfBoundsAccess .register (s.pc.toNat + 1)) := by
  rw [callHandler, pushByte_ok imm hsp]
  exact jumpToRegister_error _ (Nat.succ_le_succ hpc)

theorem retHandler_error {s : State} (hsp : s.sp.toNat = 255) :
    retHandler s = .error (.outOfBoundsAccess .address 256) := by
  rw [retHandler_eq, incrementSp_error hsp]; rfl

/-! ### Instructions that complete -/

theorem exec_call_ok {s : State} (imm : Byte) (hsp : 1 ≤ s.sp.toNat) (hpc : s.pc.toNat + 1 < 8) :
    exec (.call imm) s = .next { s with
      mem := s.mem.write (s.sp.toNat - 1) imm, regs := s.regs.set 7 (s.sp - 1#8),
      pc := ((s.regs.set 7 (s.sp - 1#8))[s.pc.toNat + 1]).setWidth 9 } :=
  runInstr_ok_setsPc (m := .CALL) (by decide) (callHandler_ok imm hsp hpc)

theorem exec_ret_ok {s : State} (hsp : s.sp.toNat < 255) :
    exec .ret s =
      .next { s with regs := s.regs.set 7 (s.sp + 1#8), pc := (s.mem.read s.sp.toNat).setWidth 9 } :=
  runInstr_ok_setsPc (m := .RET) (by decide) (retHandler_ok hsp)

theorem exec_jeq_skip {s : State} (a : Byte) (hf : s.fl ≠ 0x01#8) :
    exec (.jeq a) s = .next { s with pc := s.pc + 2#9 } :=
  runInstr_ok_setsPc (m := .JEQ) (by decide) (Effect.jeqSkip hf).handlerOf_ok

theorem exec_jne_skip {s : State} (a : Byte) (hf : s.fl = 0x01#8) :
    exec (.jne a) s = .next { s with pc := s.pc + 2#9 } :=
  runInstr_ok_setsPc (m := .JNE) (by decide) (Effect.jneSkip hf).handlerOf_ok

theorem add_eq_ofNat_mod (x y : Byte) : x + y = BitVec.ofNat 8 ((x.toNat + y.toNat) % 256) :=
  BitVec.eq_of_toNat_eq (by simp [BitVec.toNat_add])

theorem mul_eq_ofNat_mod (x y : Byte) : x * y = BitVec.ofNat 8 ((x.toNat * y.toNat) % 256) :=
  BitVec.eq_of_toNat_eq (by simp [BitVec.toNat_mul])

theorem compareFlags_less {x y : Byte} (h : x.toNat < y.toNat) : compareFlags x y = 0x04#8 := if_pos h

theorem compareFlags_greater {x y : Byte} (h : y.toNat < x.toNat) : compareFlags x y = 0x02#8 :=
  (if_neg h.not_gt).trans (if_pos h)

theorem compareFlags_equal {x y : Byte} (h : x = y) : compareFlags x y = 0x01#8 := by
  rw [compareFlags, h, if_neg (lt_irrefl _), if_neg (lt_irrefl _), flagE]

/-! ### The obligations -/

/-- Settles O8: LDI's completion, PRN's right after it, and the fault of an index that names no register. -/
theorem ldiLoadsTheImmediate : Obligations.LdiLoadsTheImmediate := by
  intro a imm s hr
  refine ⟨rfl, fun ha => ⟨_, exec_ldi_ok hr ha imm, rfl, ?prnAfter⟩, fun ha => exec_fault (ldiHandler_error s imm ha)⟩
  case prnAfter =>
    have value : (s.regs.set a.toNat imm ha)[a.toNat] = imm := Vector.getElem_set_self ha
    have pc : s.pc + 3#9 + 2#9 = s.pc + 5#9 := BitVec.add_assoc _ _ _
    have shown := exec_prn_ok (s := { s with regs := s.regs.set a.toNat imm ha, pc := s.pc + 3#9 }) hr ha
    simpa only [value, pc] using shown

/-- Settles O9: PRN's completion and its fault. -/
theorem prnAppendsTheRegister : Obligations.PrnAppendsTheRegister := fun _ s hr =>
  ⟨rfl, exec_prn_ok hr, fun ha => exec_fault (prnHandler_error s ha)⟩

/-- Settles O10: the PC update leaves a halted core. -/
theorem hltHalts : Obligations.HltHalts :=
  ⟨rfl, fun s => (runInstr_ok (hltHandler_eq s)).trans (congrArg Host.Outcome.next (pcUpdate_halted rfl))⟩

/-- Settles O11: `x + y` on bytes is the sum modulo 256. -/
theorem addWrapsModulo256 : Obligations.AddWrapsModulo256 := fun a b s hr =>
  ⟨rfl, fun ha hb => by rw [exec_add_ok hr ha hb, add_eq_ofNat_mod],
    fun ha => exec_fault (addHandler_error s (aluOperands_error_first b ha)),
    fun ha hb => exec_fault (addHandler_error s (aluOperands_error_second ha hb))⟩

/-- Settles O12: `x * y` on bytes is the product modulo 256. -/
theorem mulKeepsTheLowByte : Obligations.MulKeepsTheLowByte := fun a b s hr =>
  ⟨rfl, fun ha hb => by rw [exec_mul_ok hr ha hb, mul_eq_ofNat_mod],
    fun ha => exec_fault (mulHandler_error s (aluOperands_error_first b ha)),
    fun ha hb => exec_fault (mulHandler_error s (aluOperands_error_second ha hb))⟩

/-- Settles O13: CMP's completion with the value of `compareFlags` in each of the three orders. -/
theorem cmpSetsExactlyOneFlag : Obligations.CmpSetsExactlyOneFlag := fun a b s hr =>
  ⟨rfl,
    fun ha hb => ⟨fun h => by rw [exec_cmp_ok hr ha hb, compareFlags_less h],
      fun h => by rw [exec_cmp_ok hr ha hb, compareFlags_greater h],
      fun h => by rw [exec_cmp_ok hr ha hb, compareFlags_equal h]⟩,
    fun ha => exec_fault (cmpHandler_error s (aluOperands_error_first b ha)),
    fun ha hb => exec_fault (cmpHandler_error s (aluOperands_error_second ha hb))⟩

/-- Settles O14: PUSH's completion and its fault at `SP = 0`. -/
theorem pushStoresTheOperandByte : Obligations.PushStoresTheOperandByte := fun imm _ hr =>
  ⟨rfl, exec_push_ok imm hr, fun hsp => exec_fault (pushByte_error_of_toNat imm hsp)⟩

/-- Settles O15: POP's completion and its fault at `SP = 255`. -/
theorem popWritesItsOwnOperandCell : Obligations.PopWritesItsOwnOperandCell := fun imm _ hr hpc =>
  ⟨rfl, fun hsp => exec_pop_ok imm hr hsp (by omega), fun hsp => exec_fault (popHandler_error hsp (by omega))⟩

/-- Settles O16: at PC 6 the register read is the stack pointer, just decremented. -/
theorem callJumpsThroughRegisterPcPlusOne : Obligations.CallJumpsThroughRegisterPcPlusOne := by
  intro imm s _
  refine ⟨rfl, exec_call_ok imm, fun hsp six => ⟨_, exec_call_ok imm hsp (by omega), ?targetIsSp⟩,
    fun hsp => exec_fault (callHandler_error_push imm hsp),
    fun hsp hpc => exec_fault (callHandler_error_register imm hsp hpc)⟩
  case targetIsSp =>
    have target : (s.regs.set 7 (s.sp - 1#8))[s.pc.toNat + 1] = s.sp - 1#8 := by simp [six]
    rw [target, toNat_setWidth_nine]
    bv_omega

/-- Settles O17: RET's completion and its fault at `SP = 255`. -/
theorem retPopsIntoThePc : Obligations.RetPopsIntoThePc :=
  ⟨rfl, fun _ _ => ⟨exec_ret_ok, fun hsp => exec_fault (retHandler_error hsp)⟩⟩

/-- Settles O18: JMP's completion and its fault. -/
theorem jmpJumpsToTheRegister : Obligations.JmpJumpsToTheRegister := fun _ s _ =>
  ⟨rfl, exec_jmp_ok, fun ha => exec_fault (jumpToRegister_error s ha)⟩

/-- Settles O19: a JEQ is taken by the whole flags byte; not taken, it never reads its operand. -/
theorem jeqTakenIffFlagsAreOne : Obligations.JeqTakenIffFlagsAreOne := fun a s _ =>
  ⟨rfl, fun hf ha => by rw [exec_jeq_ok ha, if_pos hf],
    fun hf ha => exec_fault ((jeqHandler_eq a s).trans ((if_pos hf).trans (jumpToRegister_error s ha))),
    exec_jeq_skip a⟩

/-- Settles O20: a JNE is taken by the whole flags byte; not taken, it never reads its operand. -/
theorem jneTakenIffFlagsAreNotOne : Obligations.JneTakenIffFlagsAreNotOne := fun a s _ =>
  ⟨rfl, fun hf ha => by rw [exec_jne_ok ha, if_neg hf],
    fun hf ha => exec_fault ((jneHandler_eq a s).trans ((if_neg hf).trans (jumpToRegister_error s ha))),
    exec_jne_skip a⟩

end Sys2Proof.Machine
